-- ==== Sys2Proof/Word.lean ====
section
/-! DEFINITION. The fixed numbers of R8, and the types they give: bytes (R20, R51), 16-bit words (R23, R25, R71) and register
numbers (R20). -/

namespace Sys2Proof

/-! ### The fixed numbers of R8 -/

namespace Config

/-- `MEM_SIZE` of R8. -/
@[simp] abbrev memSize : Nat := 4096
/-- `PROG_BASE` of R8: where the program image starts and the first address a store may reach. -/
@[simp] abbrev progBase : Nat := 0x200
/-- `MAX_IMAGE` of R8. -/
@[simp] abbrev maxImage : Nat := memSize - progBase
/-- `NREGS` of R8: the number of general registers. -/
@[simp] abbrev numRegs : Nat := 16
/-- The other half of R8's `NREGS`: the width of a general register. -/
@[simp] abbrev regWidth : Nat := 8
/-- `PC_WIDTH` of R8. -/
@[simp] abbrev pcWidth : Nat := 16
/-- `I_WIDTH` of R8. -/
@[simp] abbrev indexWidth : Nat := 16
/-- `STACK_CAP` of R8. -/
@[simp] abbrev stackCap : Nat := 32
/-- `STACK_ENTRY_WIDTH` of R8. -/
@[simp] abbrev stackEntryWidth : Nat := 16
/-- `FB_W` of R8. -/
@[simp] abbrev fbWidth : Nat := 64
/-- `FB_H` of R8. -/
@[simp] abbrev fbHeight : Nat := 32
/-- `NKEYS` of R8. -/
@[simp] abbrev numKeys : Nat := 16
/-- `TIMER_HZ` of R8. -/
@[simp] abbrev timerHz : Nat := 60
/-- `FONT_GLYPHS` of R8. -/
@[simp] abbrev fontGlyphs : Nat := 16
/-- `GLYPH_BYTES` of R8. -/
@[simp] abbrev glyphBytes : Nat := 5
/-- The size of the font: `FONT_GLYPHS * GLYPH_BYTES` of R8. -/
@[simp] abbrev fontBytes : Nat := fontGlyphs * glyphBytes

end Config

/-! ### Types -/

/-! The widths below, and the bounds of `sp`, the stack and the font base, are numerals, so that arithmetic reads them
without unfolding; Laws/Config.lean ties them to the numbers above. -/

/-- An 8-bit unsigned value: a general register, a timer or a byte of memory (R20, R28, R30). -/
abbrev Byte := BitVec 8

/-- A 16-bit unsigned value: `pc`, `I`, a stack entry or an instruction word (R23, R25, R26, R71). -/
abbrev Word := BitVec 16

/-- The number of a general register, 0 to 15 (R20). -/
abbrev Reg := Fin 16

end Sys2Proof
end

