-- ==== Sys2Proof/Config.lean ====
section
/-! DEFINITION. What an implementation fixes beside the numbers of Word.lean (R8, R40), and the free values: what the host supplies each tick (R236), on
which the machine's specification puts no law. -/

namespace Sys2Proof

namespace Config

/-- `FLAG_REG` of R8: VF. -/
@[simp] abbrev flagReg : Reg := 15

end Config

/-! ### The parameters an implementation chooses -/

/-- The Quirk Profile of R40: six toggles, fixed at `initialize`. -/
structure Quirks where
  vfReset      : Bool
  indexAdvance : Bool
  displayWait  : Bool
  clip         : Bool
  shiftInPlace : Bool
  jumpVx       : Bool
deriving DecidableEq, Repr, Inhabited

/-- The three presets of R41: informative, and no definition of the model uses them (UNVERIFIED, log entry
19).  This is CHIP-8. -/
def Quirks.chip8 : Quirks := ⟨true, true, true, true, false, false⟩
/-- The SUPER-CHIP preset of R41. -/
def Quirks.superChip : Quirks := ⟨false, false, false, true, true, true⟩
/-- The XO-CHIP preset of R41. -/
def Quirks.xoChip : Quirks := ⟨false, true, false, false, false, false⟩

/-- The configuration of one machine (R8, R236): the Quirk Profile, `FONT_BASE` with its bound
`FONT_BASE + 80 <= 0x200` in its type (R32), `FONT_DATA` (R33) and `CLS_SETS_DRAW` (R170). -/
structure Parameters where
  quirks      : Quirks
  fontBase    : Fin 433
  fontData    : Vector Byte Config.fontBytes
  clsSetsDraw : Bool
deriving DecidableEq, Repr, Inhabited

/-! ### Time and the inputs of a tick -/

/-- A clock reading: a non-negative rational number of milliseconds (R29, R225). -/
structure Millis where
  val    : Rat
  nonneg : 0 ≤ val
deriving DecidableEq, Repr

/-- The reading `num / den` ms.  Every non-negative rational is one of these. -/
def Millis.frac (num den : Nat) : Millis :=
  ⟨mkRat num den, by rw [Rat.mkRat_eq_div]; positivity⟩

/-- The inputs of one tick (R236): the two key edges, where 16 or more means none (R231), the clock reading and the
random byte (R136). -/
structure TickInput where
  pressed  : Nat
  released : Nat
  now      : Millis
  rnd      : Byte
deriving DecidableEq, Repr

namespace Config

/-- The conventional font, the default of R33 for `FONT_DATA`. -/
def defaultFont : Vector Byte 80 :=
  #v[0xF0, 0x90, 0x90, 0x90, 0xF0,  0x20, 0x60, 0x20, 0x20, 0x70,  0xF0, 0x10, 0xF0, 0x80, 0xF0,
     0xF0, 0x10, 0xF0, 0x10, 0xF0,  0x90, 0x90, 0xF0, 0x10, 0x10,  0xF0, 0x80, 0xF0, 0x10, 0xF0,
     0xF0, 0x80, 0xF0, 0x90, 0xF0,  0xF0, 0x10, 0x20, 0x40, 0x40,  0xF0, 0x90, 0xF0, 0x90, 0xF0,
     0xF0, 0x90, 0xF0, 0x10, 0xF0,  0xF0, 0x90, 0xF0, 0x90, 0x90,  0xE0, 0x90, 0xE0, 0x90, 0xE0,
     0xF0, 0x80, 0x80, 0x80, 0xF0,  0xE0, 0x90, 0x90, 0x90, 0xE0,  0xF0, 0x80, 0xF0, 0x80, 0xF0,
     0xF0, 0x80, 0xF0, 0x80, 0x80]

/-! ### Free values: nothing constrains them (DESIGN CHOICE, log entries 1, 3 and 4) -/

/-- The configuration `State.reset` is initialised with: any one (R8 marks its parts OPEN). -/
opaque parameters : Parameters

/-- Numerator and denominator of the clock reading `initialize` takes, `now0` (R43). -/
opaque initialClock : Nat × Nat

/-- The key-pressed edge the host gives tick `k` where it has queued no input for it. -/
opaque hostPressed : Nat → Nat

/-- The key-released edge the host gives tick `k` where it has queued no input for it. -/
opaque hostReleased : Nat → Nat

/-- Numerator and denominator of the clock reading the host gives tick `k` where it has queued no input for it. -/
opaque hostClock : Nat → Nat × Nat

/-- The random byte of tick `k` where the host has queued no input for it (R136). -/
opaque hostRandom : Nat → Byte

/-- The inputs of tick `k` where the host has queued none: every part is free. -/
def hostInput (k : Nat) : TickInput where
  pressed  := hostPressed k
  released := hostReleased k
  now      := .frac (hostClock k).1 (hostClock k).2
  rnd      := hostRandom k

end Config

end Sys2Proof
end

