-- ==== Sys2Proof/Machine/State.lean ====
section
/-! DEFINITION. The machine's state as plain data, the reasons a tick can have no step, and the state after reset.  Every
piece of state of R20 to R43 has its field; the last three fields are the model's own (DESIGN CHOICE,
log entries 1 and 2). -/

namespace Sys2Proof.Machine

/-! ### The fatal errors of R211 -/

/-- The fatal causes of R211. -/
inductive FatalCause where
  /-- Code 1: `call` with a full stack (R27, R103). -/
  | stackOverflow
  /-- Code 2: `return` with an empty stack (R27, R101). -/
  | stackUnderflow
  /-- Code 3: the word decodes to no instruction (R77). -/
  | illegalInstruction
  /-- Code 4: fetch at an odd `pc` or at one above 0xFFE (R81). -/
  | fetchFault
  /-- Code 5: a data access above 0xFFF (R55, R56). -/
  | memoryFault
  /-- Code 6: a store below 0x200 (R56). -/
  | protectedWrite
  /-- Code 7: a key skip whose register holds more than 15 (R194, R195). -/
  | keyIndexFault
deriving DecidableEq, Repr

/-- What a fatal error records beside its cause (R211): an address, an address and the word there, or an address and
a key index.  A data address is exact, hence a natural number (R55). -/
inductive FatalInfo where
  | address (a : Nat)
  | word (a : Word) (w : Word)
  | key (a : Word) (k : Byte)
deriving DecidableEq, Repr

/-- `Fatal(cause, A, info)`: `A` is the address of the tick's instruction (R36, R211). -/
structure FatalRecord where
  cause   : FatalCause
  address : Word
  info    : FatalInfo
deriving DecidableEq, Repr

/-! ### State -/

/-- The framebuffer: 32 rows of 64 pixels, true where set (R34). -/
abbrev Frame := Vector (Vector Bool Config.fbWidth) Config.fbHeight

/-- The bytes of memory that differ from what reset left there, by address; see `Memory.wf` for the form. -/
abbrev Memory := List Host.Cell

/-- The machine (R20 to R43).  Fields keep the specification's names. -/
structure State where
  /-- The 16 general registers; `V[15]` is VF (R20, R21). -/
  V : Vector Byte Config.numRegs
  /-- The program counter (R23). -/
  pc : Word
  /-- The index register (R25). -/
  I : Word
  /-- The 32 entries of the call stack, stale ones included (R26). -/
  stack : Vector Word 32
  /-- The number of valid entries, 0 to 32 (R26). -/
  sp : Fin 33
  /-- The delay timer (R28). -/
  DT : Byte
  /-- The sound timer (R28). -/
  ST : Byte
  /-- The clock reading of the last timer decrement (R29). -/
  lastTick : Millis
  /-- Memory (R30). -/
  mem : Memory
  /-- The framebuffer (R34). -/
  fb : Frame
  /-- The key latch (R35). -/
  keyState : Vector Bool Config.numKeys
  /-- The first fatal error, if there was one (R36). -/
  fault : Option FatalRecord
  /-- The vblank latch (R37). -/
  vblank : Bool
  /-- The output flag of the tick (R38). -/
  shouldDraw : Bool
  /-- Has a program been loaded (R39)? -/
  loaded : Bool
  /-- The configuration `initialize` was given (R40, R236): no step changes it. -/
  params : Parameters
  /-- The inputs the host has lined up for the coming ticks, the next one first (R236). -/
  inputs : List TickInput
  /-- How many ticks have completed: what the free inputs of R236 are drawn by where `inputs` is empty. -/
  ticks : Nat
deriving DecidableEq, Repr

/-! ### Reset -/

/-- `initialize(now0)` with its configuration: the first column of R43, R250.  `mem` lists nothing: what an unlisted byte
reads as is the font and the zeroes that R43 gives (`resetByte`). -/
def State.initialize (p : Parameters) (now0 : Millis) : State where
  V := Vector.replicate Config.numRegs 0
  pc := 0
  I := 0
  stack := Vector.replicate Config.stackCap 0
  sp := 0
  DT := 0
  ST := 0
  lastTick := now0
  mem := []
  fb := Vector.replicate Config.fbHeight (Vector.replicate Config.fbWidth false)
  keyState := Vector.replicate Config.numKeys false
  fault := none
  vblank := false
  shouldDraw := false
  loaded := false
  params := p
  inputs := []
  ticks := 0

/-- The machine right after `initialize` (R43), for any configuration and any first clock reading: both are free values
of Config (DESIGN CHOICE, log entries 3 and 4). -/
def State.reset : State :=
  State.initialize Config.parameters (.frac Config.initialClock.1 Config.initialClock.2)

/-! ### When there is no step -/

/-- Why a tick has no step although the machine has one state.  Raised by `step` alone. -/
inductive Fault where
  /-- A fatal error has been recorded, and no later tick has a step (R36, R212).  Raised by `step` where `fault` is not
  none; safe, since the specification gives this state no successor. -/
  | halted (r : FatalRecord)
deriving DecidableEq, Repr

/-- Why the model gives a tick no meaning. -/
inductive Refusal where
  /-- An instruction that has no meaning in the model.  Raised by no arm of `exec`; safe. -/
  | notModelled (mnemonic : String)
  /-- A tick before a program was loaded (R254).  Raised by `step` where `loaded` is false; safe, since the specification
  refuses it too. -/
  | noProgram
deriving DecidableEq, Repr

/-- What a step or a meaning answers. -/
abbrev Result := Host.Outcome State Fault Refusal

end Sys2Proof.Machine
end

