-- ==== Sys2Proof/Machine/Ops.lean ====
section
/-! DEFINITION. The named operations over the state: registers, the program counter, the call stack, checked memory
access, the framebuffer, the tick's inputs, and raising a fatal error (R11, R27, R55, R56, R212). -/

namespace Sys2Proof.Machine

/-! ### Raising a fatal error -/

/-- The cause and the info of a `raise` (R11); the record adds the address `A`. -/
abbrev Raise := FatalCause × FatalInfo

/-- The code R211 assigns to a cause. -/
def FatalCause.code : FatalCause → Nat
  | .stackOverflow => 1
  | .stackUnderflow => 2
  | .illegalInstruction => 3
  | .fetchFault => 4
  | .memoryFault => 5
  | .protectedWrite => 6
  | .keyIndexFault => 7

/-- The address `A` of the executing instruction: fetch has left `pc = A + 2` (R23). -/
def State.instrAddress (s : State) : Word := s.pc - 2

/-- Taking a fatal error (R212) as far as the executing instruction reaches: nothing of the instruction takes effect and
`fault` records the error.  `abortTick` undoes the rest of the tick. -/
def State.raise (s : State) (r : Raise) : State :=
  { s with fault := some ⟨r.1, s.instrAddress, r.2⟩ }

/-- End an instruction: its result, or the state it began in with the fatal error it raised (R57, R212). -/
def State.settle (s : State) : Except Raise State → State
  | .ok t => t
  | .error r => s.raise r

/-! ### Registers and the program counter -/

/-- `V[r]`. -/
def State.reg (s : State) (r : Reg) : Byte := s.V[r.val]

/-- `V[r] <- v`. -/
def State.setReg (s : State) (r : Reg) (v : Byte) : State :=
  { s with V := s.V.set r.val v }

/-- `V[i] <- bytes[0]; V[i+1] <- bytes[1]; …`, ascending (R155). -/
def State.setRegs (s : State) : Nat → List Byte → State
  | _, [] => s
  | i, b :: bs => State.setRegs (s.setReg (Fin.ofNat 16 i) b) (i + 1) bs

/-- The values of `V[0]` to `V[x]` (R154). -/
def State.regsUpTo (s : State) (x : Reg) : List Byte := s.V.toList.take (x.val + 1)

/-- `pc <- target`, with no check (R100). -/
def State.setPc (s : State) (target : Word) : State := { s with pc := target }

/-- `pc <- pc + 2` where the condition holds: a skip (R100). -/
def State.skipIf (s : State) (c : Bool) : State :=
  { s with pc := if c then s.pc + 2 else s.pc }

/-- `pc <- pc - 2`: the same instruction runs again at the next tick (R258). -/
def State.rewind (s : State) : State := { s with pc := s.pc - 2 }

/-- `I <- v`. -/
def State.setI (s : State) (v : Word) : State := { s with I := v }

/-! ### The call stack -/

/-- `Push(a)` of R27. -/
def State.push (s : State) (a : Word) : Except Raise State :=
  if h : s.sp.val < Config.stackCap then
    .ok { s with stack := s.stack.set s.sp.val a, sp := ⟨s.sp.val + 1, Nat.succ_lt_succ h⟩ }
  else
    .error (.stackOverflow, .address s.instrAddress.toNat)

/-- `Pop()` of R27: the popped address, and the state with one entry fewer. -/
def State.pop (s : State) : Except Raise (Word × State) :=
  if h : 0 < s.sp.val then
    .ok (s.stack[s.sp.val - 1], { s with sp := ⟨s.sp.val - 1, by omega⟩ })
  else
    .error (.stackUnderflow, .address s.instrAddress.toNat)

/-! ### Memory -/

/-- What a byte reads as that nothing has written since `initialize`: the font in its place, zero elsewhere (R32, R43). -/
def resetByte (p : Parameters) (a : Nat) : Byte :=
  if Config.progBase ≤ a then 0
  else if h : p.fontBase.val ≤ a ∧ a < p.fontBase.val + Config.fontBytes then
    p.fontData[a - p.fontBase.val]'(by simp at h ⊢; omega)
  else 0

/-- The byte memory holds at an address. -/
def Memory.read (p : Parameters) : Memory → Nat → Byte
  | [], a => resetByte p a
  | (b, u) :: m, a => if a = b then u else Memory.read p m a

/-- Memory with one byte replaced.  The list stays sorted and lists no byte that reads as at reset. -/
def Memory.write (p : Parameters) : Memory → Nat → Byte → Memory
  | [], a, v => if v = resetByte p a then [] else [(a, v)]
  | (b, u) :: m, a, v =>
    if a < b then
      if v = resetByte p a then (b, u) :: m else (a, v) :: (b, u) :: m
    else if a = b then
      if v = resetByte p a then m else (a, v) :: m
    else (b, u) :: Memory.write p m a v

/-- Memory with consecutive bytes replaced from an address on, unchecked: how an image is loaded (R251). -/
def Memory.writeAll (p : Parameters) : Memory → Nat → List Byte → Memory
  | m, _, [] => m
  | m, a, v :: vs => Memory.writeAll p (Memory.write p m a v) (a + 1) vs

/-- The canonical form: addresses strictly rise, and no listed byte is the one an unlisted address reads as. -/
abbrev Memory.wf (p : Parameters) (m : Memory) : Prop :=
  m.Pairwise (fun c d => c.1 < d.1) ∧ ∀ c ∈ m, c.2 ≠ resetByte p c.1

/-- `mem[a]`. -/
def State.byteAt (s : State) (a : Nat) : Byte := Memory.read s.params s.mem a

/-- `MemRead(a, 1)` of R55. -/
def State.memRead (s : State) (a : Nat) : Except Raise Byte :=
  if Config.memSize ≤ a then .error (.memoryFault, .address a) else .ok (s.byteAt a)

/-- `MemWrite(a, 1, v)` of R56. -/
def State.memWrite (s : State) (a : Nat) (v : Byte) : Except Raise State :=
  if Config.memSize ≤ a then .error (.memoryFault, .address a)
  else if a < Config.progBase then .error (.protectedWrite, .address a)
  else .ok { s with mem := Memory.write s.params s.mem a v }

/-- The `n` bytes from `a` on, read at ascending addresses (R52). -/
def State.loadBytes (s : State) (a : Nat) : Nat → Except Raise (List Byte)
  | 0 => .ok []
  | n + 1 =>
    match s.memRead a with
    | .error r => .error r
    | .ok b =>
      match State.loadBytes s (a + 1) n with
      | .error r => .error r
      | .ok bs => .ok (b :: bs)

/-- Bytes stored from `a` on, at ascending addresses (R52). -/
def State.storeBytes (s : State) (a : Nat) : List Byte → Except Raise State
  | [] => .ok s
  | b :: bs =>
    match s.memWrite a b with
    | .error r => .error r
    | .ok t => State.storeBytes t (a + 1) bs

/-! ### The framebuffer -/

/-- `fb(px, py)`. -/
def Frame.pixel (f : Frame) (px : Fin 64) (py : Fin 32) : Bool := (f[py.val])[px.val]

/-- `fb(px, py) <- v`. -/
def Frame.setPixel (f : Frame) (px : Fin 64) (py : Fin 32) (v : Bool) : Frame :=
  f.set py.val ((f[py.val]).set px.val v)

/-- Every pixel false. -/
def Frame.clear : Frame := Vector.replicate 32 (Vector.replicate 64 false)

/-! ### The inputs of a tick -/

/-- The inputs of the tick this state is in: the ones the host has lined up, or free ones (R236, R237). -/
def State.input (s : State) : TickInput :=
  match s.inputs with
  | i :: _ => i
  | [] => Config.hostInput s.ticks

end Sys2Proof.Machine
end

