-- ==== Sys2Proof/Machine/Flags.lean ====
section
/-! DEFINITION. The flag in VF: the conditions of R124 and the write of VF, which comes last (R22, R123). -/

namespace Sys2Proof.Machine

/-- `bool(c)` of R11, as a byte. -/
def flagByte (c : Bool) : Byte := if c then 1 else 0

/-- Does the unsigned sum exceed 255 (R130)? -/
def carryOut (a b : Byte) : Bool := decide (255 < a.toNat + b.toNat)

/-- Does `a - b` need no borrow (R131)? -/
def noBorrow (a b : Byte) : Bool := decide (b.toNat ≤ a.toNat)

/-- The bit a right shift by one evicts (R132). -/
def evictedRight (v : Byte) : Bool := v.getLsbD 0

/-- The bit a left shift by one evicts (R134). -/
def evictedLeft (v : Byte) : Bool := v.getLsbD 7

/-- `V[15] <- bool(c)`. -/
def State.setFlag (s : State) (c : Bool) : State := s.setReg Config.flagReg (flagByte c)

/-- `if Q.vf_reset: V[15] <- 0` (R127 to R129). -/
def State.bitwiseFlag (s : State) : State :=
  { s with V := if s.params.quirks.vfReset then s.V.set Config.flagReg.val 0 else s.V }

end Sys2Proof.Machine
end

