-- ==== Sys2Proof/Machine/Operands.lean ====
section
/-! DEFINITION. Operand forms: effective addresses, the registers the Quirk Profile selects, glyph addresses, decimal
digits and key indices (R73, R108, R132, R152, R153, R156, R194). -/

namespace Sys2Proof.Machine

/-- An address field as a 16-bit address, zero-extended (R73). -/
def addressOf (nnn : BitVec 12) : Word := nnn.setWidth 16

/-- A byte as a 16-bit value, zero-extended (R73). -/
def wordOf (b : Byte) : Word := b.setWidth 16

/-- The address of byte `k` of a transfer: `I + k`, exact (R156). -/
def State.transferAddress (s : State) (k : Nat) : Nat := s.I.toNat + k

/-- The register BNNN adds: `x`, the high nibble of `nnn`, under `Q.jump_vx`, and `V[0]` otherwise (R108). -/
def State.offsetReg (s : State) (nnn : BitVec 12) : Reg :=
  if s.params.quirks.jumpVx then (nnn.extractLsb' 8 4).toFin else 0

/-- What a shift shifts: `V[x]` under `Q.shift_in_place`, and `V[y]` otherwise (R132, R134). -/
def State.shiftSource (s : State) (x y : Reg) : Byte :=
  if s.params.quirks.shiftInPlace then s.reg x else s.reg y

/-- The address of the glyph of the low nibble of a byte (R152). -/
def State.glyphAddress (s : State) (v : Byte) : Word :=
  BitVec.ofNat 16 (s.params.fontBase.val + Config.glyphBytes * (v.toNat % 16))

/-- The hundreds, tens and ones of a byte (R153). -/
def bcdDigits (v : Byte) : List Byte :=
  [BitVec.ofNat 8 (v.toNat / 100), BitVec.ofNat 8 (v.toNat / 10 % 10), BitVec.ofNat 8 (v.toNat % 10)]

/-- What a block transfer of `V[0]` to `V[x]` leaves in `I` (R154, R155). -/
def State.advancedI (s : State) (x : Reg) : Word :=
  if s.params.quirks.indexAdvance then s.I + BitVec.ofNat 16 (x.val + 1) else s.I

/-- Is the key a register names down?  An index above 15 names no key (R194, R195). -/
def State.keyDown (s : State) (k : Byte) : Except Raise Bool :=
  if h : k.toNat < Config.numKeys then .ok (s.keyState[k.toNat])
  else .error (.keyIndexFault, .key s.instrAddress k)

end Sys2Proof.Machine
end

