-- ==== Sys2Proof/Machine/Alu.lean ====
section
/-! DEFINITION. Immediate and register arithmetic and logic, and the random instruction: 6XKK, 7XKK, 8XY0 to 8XY7, 8XYE,
CXKK (R120 to R137).  Operands are read from the state the instruction starts in; the result is written first and the
flag last (R123). -/

namespace Sys2Proof.Machine

/-- The result in `V[x]`, then the flag in VF (R123). -/
def State.setWithFlag (s : State) (x : Reg) (v : Byte) (flag : Bool) : State :=
  (s.setReg x v).setFlag flag

/-- 6XKK (R121). -/
def execLdImm (x : Reg) (kk : Byte) (s : State) : Result :=
  .next (s.setReg x kk)

/-- 7XKK (R122). -/
def execAddImm (x : Reg) (kk : Byte) (s : State) : Result :=
  .next (s.setReg x (s.reg x + kk))

/-- 8XY0 (R126). -/
def execLdReg (x y : Reg) (s : State) : Result :=
  .next (s.setReg x (s.reg y))

/-- 8XY1 (R127). -/
def execOr (x y : Reg) (s : State) : Result :=
  .next (s.setReg x (s.reg x ||| s.reg y)).bitwiseFlag

/-- 8XY2 (R128). -/
def execAnd (x y : Reg) (s : State) : Result :=
  .next (s.setReg x (s.reg x &&& s.reg y)).bitwiseFlag

/-- 8XY3 (R129). -/
def execXor (x y : Reg) (s : State) : Result :=
  .next (s.setReg x (s.reg x ^^^ s.reg y)).bitwiseFlag

/-- 8XY4 (R130). -/
def execAddReg (x y : Reg) (s : State) : Result :=
  .next (s.setWithFlag x (s.reg x + s.reg y) (carryOut (s.reg x) (s.reg y)))

/-- 8XY5 (R131). -/
def execSub (x y : Reg) (s : State) : Result :=
  .next (s.setWithFlag x (s.reg x - s.reg y) (noBorrow (s.reg x) (s.reg y)))

/-- 8XY6 (R132). -/
def execShr (x y : Reg) (s : State) : Result :=
  .next (s.setWithFlag x (s.shiftSource x y >>> 1) (evictedRight (s.shiftSource x y)))

/-- 8XY7 (R133). -/
def execSubn (x y : Reg) (s : State) : Result :=
  .next (s.setWithFlag x (s.reg y - s.reg x) (noBorrow (s.reg y) (s.reg x)))

/-- 8XYE (R134). -/
def execShl (x y : Reg) (s : State) : Result :=
  .next (s.setWithFlag x (s.shiftSource x y <<< 1) (evictedLeft (s.shiftSource x y)))

/-- CXKK (R137): the tick's random byte, masked. -/
def execRnd (x : Reg) (kk : Byte) (s : State) : Result :=
  .next (s.setReg x (s.input.rnd &&& kk))

end Sys2Proof.Machine
end

