-- ==== Sys2Proof/Machine/Control.lean ====
section
/-! DEFINITION. Control transfer: 00EE, 1NNN, 2NNN, 3XKK, 4XKK, 5XY0, 9XY0, BNNN (R100 to R108).  When a meaning starts,
`pc` is the instruction's address plus 2 (R81). -/

namespace Sys2Proof.Machine

/-- 00EE (R101). -/
def execRet (s : State) : Result :=
  .next (s.settle (match s.pop with
    | .ok (a, t) => .ok (t.setPc a)
    | .error r => .error r))

/-- 1NNN (R102). -/
def execJp (nnn : BitVec 12) (s : State) : Result :=
  .next (s.setPc (addressOf nnn))

/-- 2NNN (R103). -/
def execCall (nnn : BitVec 12) (s : State) : Result :=
  .next (s.settle (match s.push s.pc with
    | .ok t => .ok (t.setPc (addressOf nnn))
    | .error r => .error r))

/-- 3XKK (R104). -/
def execSeImm (x : Reg) (kk : Byte) (s : State) : Result :=
  .next (s.skipIf (s.reg x == kk))

/-- 4XKK (R105). -/
def execSneImm (x : Reg) (kk : Byte) (s : State) : Result :=
  .next (s.skipIf (s.reg x != kk))

/-- 5XY0 (R106). -/
def execSeReg (x y : Reg) (s : State) : Result :=
  .next (s.skipIf (s.reg x == s.reg y))

/-- 9XY0 (R107). -/
def execSneReg (x y : Reg) (s : State) : Result :=
  .next (s.skipIf (s.reg x != s.reg y))

/-- BNNN (R108). -/
def execJpV0 (nnn : BitVec 12) (s : State) : Result :=
  .next (s.setPc (addressOf nnn + wordOf (s.reg (s.offsetReg nnn))))

end Sys2Proof.Machine
end

