-- ==== Sys2Proof/Machine/Display.lean ====
section
/-! DEFINITION. The display and the sprite engine: 00E0, DXYN (R170 to R174). -/

namespace Sys2Proof.Machine

/-- 00E0 (R170). -/
def execCls (s : State) : Result :=
  .next { s with fb := Frame.clear, shouldDraw := s.params.clsSetsDraw || s.shouldDraw }

/-- One set sprite bit on one pixel, with the collision seen so far: a set pixel is cleared and collides, a clear one is
set (R173). -/
def flipPixel (d : Frame × Bool) (px : Fin 64) (py : Fin 32) : Frame × Bool :=
  if d.1.pixel px py then (d.1.setPixel px py false, true) else (d.1.setPixel px py true, d.2)

/-- Column `c` of a sprite row: bit 7 is the leftmost pixel, and a pixel past the right edge is dropped or wraps (R173). -/
def drawColumn (clip : Bool) (x0 : Nat) (py : Fin 32) (row : Byte) (d : Frame × Bool) (c : Nat) : Frame × Bool :=
  if row.getLsbD (7 - c) = false then d
  else if clip && decide (Config.fbWidth ≤ x0 + c) then d
  else flipPixel d (Fin.ofNat 64 (x0 + c)) py

/-- One sprite row, columns 0 to 7 (R173). -/
def drawRow (clip : Bool) (x0 : Nat) (py : Fin 32) (row : Byte) (d : Frame × Bool) : Frame × Bool :=
  (List.range 8).foldl (drawColumn clip x0 py row) d

/-- Sprite rows from row `r` on: a row past the bottom edge ends the drawing or wraps (R173). -/
def drawRows (clip : Bool) (x0 y0 : Nat) : Nat → List Byte → Frame × Bool → Frame × Bool
  | _, [], d => d
  | r, row :: rows, d =>
    if clip && decide (Config.fbHeight ≤ y0 + r) then d
    else drawRows clip x0 y0 (r + 1) rows (drawRow clip x0 (Fin.ofNat 32 (y0 + r)) row d)

/-- Does display wait stall a draw (R172)? -/
def State.drawStalled (s : State) : Bool := s.params.quirks.displayWait && !s.vblank

/-- A draw that is not stalled: all sprite bytes are read first, then VF, `fb` and the flags are written (R171 to R173). -/
def State.drawSprite (s : State) (x y : Reg) (n : BitVec 4) : Except Raise State :=
  match s.loadBytes (s.transferAddress 0) n.toNat with
  | .error r => .error r
  | .ok rows =>
    let drawn := drawRows s.params.quirks.clip ((s.reg x).toNat % Config.fbWidth) ((s.reg y).toNat % Config.fbHeight)
      0 rows (s.fb, false)
    .ok { s.setFlag drawn.2 with
            fb := drawn.1
            vblank := if s.params.quirks.displayWait then false else s.vblank
            shouldDraw := true }

/-- DXYN (R171 to R174). -/
def execDrw (x y : Reg) (n : BitVec 4) (s : State) : Result :=
  .next (if s.drawStalled then s.rewind else s.settle (s.drawSprite x y n))

end Sys2Proof.Machine
end

