-- ==== Sys2Proof/Machine/Index.lean ====
section
/-! DEFINITION. The index register and memory: ANNN, FX1E, FX29, FX33, FX55, FX65 (R150 to R156). -/

namespace Sys2Proof.Machine

/-- ANNN (R150). -/
def execLdI (nnn : BitVec 12) (s : State) : Result :=
  .next (s.setI (addressOf nnn))

/-- FX1E (R151): VF is not written. -/
def execAddIVx (x : Reg) (s : State) : Result :=
  .next (s.setI (s.I + wordOf (s.reg x)))

/-- FX29 (R152). -/
def execLdFVx (x : Reg) (s : State) : Result :=
  .next (s.setI (s.glyphAddress (s.reg x)))

/-- FX33 (R153). -/
def execLdBVx (x : Reg) (s : State) : Result :=
  .next (s.settle (s.storeBytes (s.transferAddress 0) (bcdDigits (s.reg x))))

/-- FX55 (R154). -/
def execLdMemVx (x : Reg) (s : State) : Result :=
  .next (s.settle (match s.storeBytes (s.transferAddress 0) (s.regsUpTo x) with
    | .ok t => .ok (t.setI (s.advancedI x))
    | .error r => .error r))

/-- FX65 (R155). -/
def execLdVxMem (x : Reg) (s : State) : Result :=
  .next (s.settle (match s.loadBytes (s.transferAddress 0) (x.val + 1) with
    | .ok bytes => .ok ((s.setRegs 0 bytes).setI (s.advancedI x))
    | .error r => .error r))

end Sys2Proof.Machine
end

