-- ==== Sys2Proof/Machine/TimersInput.lean ====
section
/-! DEFINITION. Timers and keys: FX07, FX15, FX18, EX9E, EXA1, FX0A (R190 to R196). -/

namespace Sys2Proof.Machine

/-- FX07 (R190). -/
def execLdVxDt (x : Reg) (s : State) : Result :=
  .next (s.setReg x s.DT)

/-- FX15 (R191). -/
def execLdDtVx (x : Reg) (s : State) : Result :=
  .next { s with DT := s.reg x }

/-- FX18 (R192). -/
def execLdStVx (x : Reg) (s : State) : Result :=
  .next { s with ST := s.reg x }

/-- EX9E (R194). -/
def execSkp (x : Reg) (s : State) : Result :=
  .next (s.settle (match s.keyDown (s.reg x) with
    | .ok down => .ok (s.skipIf down)
    | .error r => .error r))

/-- EXA1 (R195). -/
def execSknp (x : Reg) (s : State) : Result :=
  .next (s.settle (match s.keyDown (s.reg x) with
    | .ok down => .ok (s.skipIf (!down))
    | .error r => .error r))

/-- FX0A (R196): a release edge of this tick ends the wait. -/
def execLdVxK (x : Reg) (s : State) : Result :=
  .next (if s.input.released < Config.numKeys then s.setReg x (BitVec.ofNat 8 s.input.released) else s.rewind)

end Sys2Proof.Machine
end

