-- ==== Sys2Proof/Syntax.lean ====
section
/-! DEFINITION. The instructions of R75, one constructor per row of the opcode table, with the operand fields of R72 as
typed operands: a register number, the byte `kk`, the nibble `n` or the address `nnn`. -/

namespace Sys2Proof

/-- The 34 instructions of R75, in the table's order.  An operand's width is its type, so every term is an instruction
some word encodes (R78). -/
inductive Instr where
  /-- 00E0, `clear-screen` (R170). -/
  | cls
  /-- 00EE, return (R101). -/
  | ret
  /-- 1NNN, unconditional jump (R102). -/
  | jp (nnn : BitVec 12)
  /-- 2NNN, call (R103). -/
  | call (nnn : BitVec 12)
  /-- 3XKK, `equal-immediate` skip (R104). -/
  | seImm (x : Reg) (kk : Byte)
  /-- 4XKK, `not-equal-immediate` skip (R105). -/
  | sneImm (x : Reg) (kk : Byte)
  /-- 5XY0, `equal-register` skip (R106). -/
  | seReg (x y : Reg)
  /-- 6XKK, `set-immediate` (R121). -/
  | ldImm (x : Reg) (kk : Byte)
  /-- 7XKK, `add-immediate` (R122). -/
  | addImm (x : Reg) (kk : Byte)
  /-- 8XY0, `set` (R126). -/
  | ldReg (x y : Reg)
  /-- 8XY1, `or` (R127). -/
  | orReg (x y : Reg)
  /-- 8XY2, `and` (R128). -/
  | andReg (x y : Reg)
  /-- 8XY3, `xor` (R129). -/
  | xorReg (x y : Reg)
  /-- 8XY4, `add` (R130). -/
  | addReg (x y : Reg)
  /-- 8XY5, `subtract` (R131). -/
  | sub (x y : Reg)
  /-- 8XY6, `shift-right` (R132). -/
  | shr (x y : Reg)
  /-- 8XY7, `subtract-reverse` (R133). -/
  | subn (x y : Reg)
  /-- 8XYE, `shift-left` (R134). -/
  | shl (x y : Reg)
  /-- 9XY0, `not-equal-register` skip (R107). -/
  | sneReg (x y : Reg)
  /-- ANNN, `set-index` (R150). -/
  | ldI (nnn : BitVec 12)
  /-- BNNN, `jump-with-offset` (R108). -/
  | jpV0 (nnn : BitVec 12)
  /-- CXKK, `random` (R137). -/
  | rnd (x : Reg) (kk : Byte)
  /-- DXYN, `draw-sprite` (R171 to R174). -/
  | drw (x y : Reg) (n : BitVec 4)
  /-- EX9E, `skip-if-key-down` (R194). -/
  | skp (x : Reg)
  /-- EXA1, `skip-if-key-not-down` (R195). -/
  | sknp (x : Reg)
  /-- FX07, `read-delay-timer` (R190). -/
  | ldVxDt (x : Reg)
  /-- FX0A, `wait-for-key` (R196). -/
  | ldVxK (x : Reg)
  /-- FX15, `set-delay-timer` (R191). -/
  | ldDtVx (x : Reg)
  /-- FX18, `set-sound-timer` (R192). -/
  | ldStVx (x : Reg)
  /-- FX1E, `add-to-index` (R151). -/
  | addIVx (x : Reg)
  /-- FX29, `font-character` (R152). -/
  | ldFVx (x : Reg)
  /-- FX33, `binary-coded-decimal` (R153). -/
  | ldBVx (x : Reg)
  /-- FX55, `store-registers` (R154). -/
  | ldMemVx (x : Reg)
  /-- FX65, `load-registers` (R155). -/
  | ldVxMem (x : Reg)
deriving DecidableEq, Repr

/-- The instruction's name in the opcode table. -/
def Instr.mnemonic : Instr → String
  | .cls => "CLS"
  | .ret => "RET"
  | .jp _ => "JP"
  | .call _ => "CALL"
  | .seImm _ _ => "SE_IMM"
  | .sneImm _ _ => "SNE_IMM"
  | .seReg _ _ => "SE_REG"
  | .ldImm _ _ => "LD_IMM"
  | .addImm _ _ => "ADD_IMM"
  | .ldReg _ _ => "LD_REG"
  | .orReg _ _ => "OR"
  | .andReg _ _ => "AND"
  | .xorReg _ _ => "XOR"
  | .addReg _ _ => "ADD_REG"
  | .sub _ _ => "SUB"
  | .shr _ _ => "SHR"
  | .subn _ _ => "SUBN"
  | .shl _ _ => "SHL"
  | .sneReg _ _ => "SNE_REG"
  | .ldI _ => "LD_I"
  | .jpV0 _ => "JP_V0"
  | .rnd _ _ => "RND"
  | .drw _ _ _ => "DRW"
  | .skp _ => "SKP"
  | .sknp _ => "SKNP"
  | .ldVxDt _ => "LD_VX_DT"
  | .ldVxK _ => "LD_VX_K"
  | .ldDtVx _ => "LD_DT_VX"
  | .ldStVx _ => "LD_ST_VX"
  | .addIVx _ => "ADD_I_VX"
  | .ldFVx _ => "LD_F_VX"
  | .ldBVx _ => "LD_B_VX"
  | .ldMemVx _ => "LD_MEM_VX"
  | .ldVxMem _ => "LD_VX_MEM"

end Sys2Proof
end

