-- ==== Sys2Proof/WellFormed.lean ====
section
/-! DEFINITION. Which data is legal.  An `Instr` and a `Parameters` carry their bounds in their types, so no term of either
is ill-formed; what remains to be checked is an instruction word against the opcode table of R75 (R77 calls every other
word illegal), a program image (R252) and a key index (R231, R194).  The table is written from the mask and the value of
each row, apart from the decoder, so that the two can be compared. -/

namespace Sys2Proof

/-- One row of R75: the bits it fixes and their values. -/
structure OpcodeRow where
  mnemonic : String
  mask     : Word
  value    : Word
deriving DecidableEq, Repr

/-- Does the word have the row's fixed bits? -/
def OpcodeRow.hasWord (r : OpcodeRow) (w : Word) : Bool :=
  w &&& r.mask == r.value

/-- Rows 1 to 9 of R75. -/
def opcodeRows1 : List OpcodeRow :=
  [⟨"CLS", 0xFFFF, 0x00E0⟩, ⟨"RET", 0xFFFF, 0x00EE⟩, ⟨"JP", 0xF000, 0x1000⟩, ⟨"CALL", 0xF000, 0x2000⟩,
   ⟨"SE_IMM", 0xF000, 0x3000⟩, ⟨"SNE_IMM", 0xF000, 0x4000⟩, ⟨"SE_REG", 0xF00F, 0x5000⟩,
   ⟨"LD_IMM", 0xF000, 0x6000⟩, ⟨"ADD_IMM", 0xF000, 0x7000⟩]

/-- Rows 10 to 18 of R75. -/
def opcodeRows2 : List OpcodeRow :=
  [⟨"LD_REG", 0xF00F, 0x8000⟩, ⟨"OR", 0xF00F, 0x8001⟩, ⟨"AND", 0xF00F, 0x8002⟩, ⟨"XOR", 0xF00F, 0x8003⟩,
   ⟨"ADD_REG", 0xF00F, 0x8004⟩, ⟨"SUB", 0xF00F, 0x8005⟩, ⟨"SHR", 0xF00F, 0x8006⟩, ⟨"SUBN", 0xF00F, 0x8007⟩,
   ⟨"SHL", 0xF00F, 0x800E⟩]

/-- Rows 19 to 25 of R75. -/
def opcodeRows3 : List OpcodeRow :=
  [⟨"SNE_REG", 0xF00F, 0x9000⟩, ⟨"LD_I", 0xF000, 0xA000⟩, ⟨"JP_V0", 0xF000, 0xB000⟩, ⟨"RND", 0xF000, 0xC000⟩,
   ⟨"DRW", 0xF000, 0xD000⟩, ⟨"SKP", 0xF0FF, 0xE09E⟩, ⟨"SKNP", 0xF0FF, 0xE0A1⟩]

/-- Rows 26 to 34 of R75. -/
def opcodeRows4 : List OpcodeRow :=
  [⟨"LD_VX_DT", 0xF0FF, 0xF007⟩, ⟨"LD_VX_K", 0xF0FF, 0xF00A⟩, ⟨"LD_DT_VX", 0xF0FF, 0xF015⟩,
   ⟨"LD_ST_VX", 0xF0FF, 0xF018⟩, ⟨"ADD_I_VX", 0xF0FF, 0xF01E⟩, ⟨"LD_F_VX", 0xF0FF, 0xF029⟩,
   ⟨"LD_B_VX", 0xF0FF, 0xF033⟩, ⟨"LD_MEM_VX", 0xF0FF, 0xF055⟩, ⟨"LD_VX_MEM", 0xF0FF, 0xF065⟩]

/-- The 34 rows of R75. -/
def opcodeRows : List OpcodeRow :=
  opcodeRows1 ++ opcodeRows2 ++ opcodeRows3 ++ opcodeRows4

/-- The rows whose fixed bits the word has. -/
def rowsOf (w : Word) : List OpcodeRow :=
  opcodeRows.filter fun r => r.hasWord w

/-- A word is legal iff it has the fixed bits of some row (R77). -/
def wordWf (w : Word) : Bool :=
  opcodeRows.any fun r => r.hasWord w

/-- A program image fits the program space (R252). -/
def imageWf (bytes : List Byte) : Bool :=
  decide (bytes.length ≤ Config.maxImage)

/-- A number that names one of the 16 logical keys (R231). -/
def keyWf (k : Nat) : Bool :=
  decide (k < Config.numKeys)

end Sys2Proof
end

