-- ==== Sys2Proof/Decode.lean ====
section
/-! DEFINITION. The decoder of R76, total on every 16-bit word and on every list of bytes, and the encoder beside it, both
from the encodings of R75 and the fields of R72 (opcode values: UNVERIFIED, log entry 6). -/

namespace Sys2Proof

/-! ### Fields (R72) -/

/-- `op`, bits 15 to 12. -/
def opField (w : Word) : BitVec 4 := w.extractLsb' 12 4
/-- `x`, bits 11 to 8, a register number. -/
def xField (w : Word) : Reg := (w.extractLsb' 8 4).toFin
/-- `y`, bits 7 to 4, a register number. -/
def yField (w : Word) : Reg := (w.extractLsb' 4 4).toFin
/-- `n`, bits 3 to 0. -/
def nField (w : Word) : BitVec 4 := w.extractLsb' 0 4
/-- `kk`, bits 7 to 0. -/
def kkField (w : Word) : Byte := w.extractLsb' 0 8
/-- `nnn`, bits 11 to 0. -/
def nnnField (w : Word) : BitVec 12 := w.extractLsb' 0 12

/-! ### Decoding -/

/-- Why bytes are no instruction: the five kinds of illegal word R77 lists, and bytes too few for a word (R71). -/
inductive Reject where
  /-- A zero-prefixed word other than 00E0 and 00EE, the machine-code call 0NNN among them. -/
  | illegalZero
  /-- 5XYn or 9XYn with n other than 0. -/
  | illegalRegisterSkip
  /-- 8XY8 to 8XYD, or 8XYF. -/
  | illegalArithmetic
  /-- EXkk other than EX9E and EXA1. -/
  | illegalKey
  /-- FXkk other than the nine of R76. -/
  | illegalMisc
  /-- Fewer than two bytes. -/
  | truncated
deriving DecidableEq, Repr

/-- `op = 0`: the full word decides. -/
def decodeZero (w : Word) : Except Reject Instr :=
  match w with
  | 0x00E0#16 => .ok .cls
  | 0x00EE#16 => .ok .ret
  | _ => .error .illegalZero

/-- `op = 5` and `op = 9`: `n` must be 0. -/
def decodeRegisterSkip (w : Word) (i : Instr) : Except Reject Instr :=
  match nField w with
  | 0#4 => .ok i
  | _ => .error .illegalRegisterSkip

/-- `op = 8`: `n` selects rows 10 to 18. -/
def decodeArithmetic (w : Word) : Except Reject Instr :=
  match nField w with
  | 0x0#4 => .ok (.ldReg (xField w) (yField w))
  | 0x1#4 => .ok (.orReg (xField w) (yField w))
  | 0x2#4 => .ok (.andReg (xField w) (yField w))
  | 0x3#4 => .ok (.xorReg (xField w) (yField w))
  | 0x4#4 => .ok (.addReg (xField w) (yField w))
  | 0x5#4 => .ok (.sub (xField w) (yField w))
  | 0x6#4 => .ok (.shr (xField w) (yField w))
  | 0x7#4 => .ok (.subn (xField w) (yField w))
  | 0xE#4 => .ok (.shl (xField w) (yField w))
  | _ => .error .illegalArithmetic

/-- `op = E`: `kk` selects rows 24 and 25. -/
def decodeKey (w : Word) : Except Reject Instr :=
  match kkField w with
  | 0x9E#8 => .ok (.skp (xField w))
  | 0xA1#8 => .ok (.sknp (xField w))
  | _ => .error .illegalKey

/-- `op = F`: `kk` selects rows 26 to 34. -/
def decodeMisc (w : Word) : Except Reject Instr :=
  match kkField w with
  | 0x07#8 => .ok (.ldVxDt (xField w))
  | 0x0A#8 => .ok (.ldVxK (xField w))
  | 0x15#8 => .ok (.ldDtVx (xField w))
  | 0x18#8 => .ok (.ldStVx (xField w))
  | 0x1E#8 => .ok (.addIVx (xField w))
  | 0x29#8 => .ok (.ldFVx (xField w))
  | 0x33#8 => .ok (.ldBVx (xField w))
  | 0x55#8 => .ok (.ldMemVx (xField w))
  | 0x65#8 => .ok (.ldVxMem (xField w))
  | _ => .error .illegalMisc

/-- `Decode(w)` of R76: first the high nibble, then the sub-field that nibble refines by.  It reads the word alone
(R82).  The last case is `op = 15`, the one value left. -/
def decode (w : Word) : Except Reject Instr :=
  match opField w with
  | 0x0#4 => decodeZero w
  | 0x1#4 => .ok (.jp (nnnField w))
  | 0x2#4 => .ok (.call (nnnField w))
  | 0x3#4 => .ok (.seImm (xField w) (kkField w))
  | 0x4#4 => .ok (.sneImm (xField w) (kkField w))
  | 0x5#4 => decodeRegisterSkip w (.seReg (xField w) (yField w))
  | 0x6#4 => .ok (.ldImm (xField w) (kkField w))
  | 0x7#4 => .ok (.addImm (xField w) (kkField w))
  | 0x8#4 => decodeArithmetic w
  | 0x9#4 => decodeRegisterSkip w (.sneReg (xField w) (yField w))
  | 0xA#4 => .ok (.ldI (nnnField w))
  | 0xB#4 => .ok (.jpV0 (nnnField w))
  | 0xC#4 => .ok (.rnd (xField w) (kkField w))
  | 0xD#4 => .ok (.drw (xField w) (yField w) (nField w))
  | 0xE#4 => decodeKey w
  | _ => decodeMisc w

/-- A word from its two bytes, the most significant first (R51). -/
def wordOfBytes (hi lo : Byte) : Word := hi ++ lo

/-- The first instruction of a list of bytes and the bytes after it: a decoder consumes exactly two (R71). -/
def decodeBytes : List Byte → Except Reject (Instr × List Byte)
  | hi :: lo :: rest =>
    match decode (wordOfBytes hi lo) with
    | .ok i => .ok (i, rest)
    | .error e => .error e
  | _ => .error .truncated

/-! ### Encoding -/

/-- A register number as the four bits of its field. -/
def regBits (r : Reg) : BitVec 4 := BitVec.ofFin r

/-- The shape `oXKK` of R74. -/
def packXK (o : BitVec 4) (x : Reg) (kk : Byte) : Word := o ++ regBits x ++ kk

/-- The shapes `oXYs` and `DXYN` of R74. -/
def packXYN (o : BitVec 4) (x y : Reg) (n : BitVec 4) : Word := o ++ regBits x ++ regBits y ++ n

/-- The shape `oNNN` of R74. -/
def packA (o : BitVec 4) (nnn : BitVec 12) : Word := o ++ nnn

/-- The word of an instruction (R75). -/
def encode : Instr → Word
  | .cls => 0x00E0
  | .ret => 0x00EE
  | .jp nnn => packA 0x1 nnn
  | .call nnn => packA 0x2 nnn
  | .seImm x kk => packXK 0x3 x kk
  | .sneImm x kk => packXK 0x4 x kk
  | .seReg x y => packXYN 0x5 x y 0x0
  | .ldImm x kk => packXK 0x6 x kk
  | .addImm x kk => packXK 0x7 x kk
  | .ldReg x y => packXYN 0x8 x y 0x0
  | .orReg x y => packXYN 0x8 x y 0x1
  | .andReg x y => packXYN 0x8 x y 0x2
  | .xorReg x y => packXYN 0x8 x y 0x3
  | .addReg x y => packXYN 0x8 x y 0x4
  | .sub x y => packXYN 0x8 x y 0x5
  | .shr x y => packXYN 0x8 x y 0x6
  | .subn x y => packXYN 0x8 x y 0x7
  | .shl x y => packXYN 0x8 x y 0xE
  | .sneReg x y => packXYN 0x9 x y 0x0
  | .ldI nnn => packA 0xA nnn
  | .jpV0 nnn => packA 0xB nnn
  | .rnd x kk => packXK 0xC x kk
  | .drw x y n => packXYN 0xD x y n
  | .skp x => packXK 0xE x 0x9E
  | .sknp x => packXK 0xE x 0xA1
  | .ldVxDt x => packXK 0xF x 0x07
  | .ldVxK x => packXK 0xF x 0x0A
  | .ldDtVx x => packXK 0xF x 0x15
  | .ldStVx x => packXK 0xF x 0x18
  | .addIVx x => packXK 0xF x 0x1E
  | .ldFVx x => packXK 0xF x 0x29
  | .ldBVx x => packXK 0xF x 0x33
  | .ldMemVx x => packXK 0xF x 0x55
  | .ldVxMem x => packXK 0xF x 0x65

/-- The high byte of a word, the one at the lower address (R51). -/
def highByte (w : Word) : Byte := w.extractLsb' 8 8
/-- The low byte of a word, the one at the higher address (R51). -/
def lowByte (w : Word) : Byte := w.extractLsb' 0 8

/-- The two bytes of an instruction as memory holds them (R51). -/
def encodeBytes (i : Instr) : List Byte := [highByte (encode i), lowByte (encode i)]

/-! ### The host's view -/

/-- The 16-bit word of a table row whose `nbits` bits are `w`; the bits above are 0. -/
def tableWord (nbits w : Nat) : Word := BitVec.ofNat 16 (w % 2 ^ nbits)

/-- The instruction the decoder reads from a table row's bits, laid out as memory holds them. -/
def decodeTableWord (nbits w : Nat) : Option Instr :=
  match decodeBytes [highByte (tableWord nbits w), lowByte (tableWord nbits w)] with
  | .ok (i, _) => some i
  | .error _ => none

end Sys2Proof
end

