-- ==== Sys2Proof/Machine/Tick.lean ====
section
/-! DEFINITION. The parts of a tick around the instruction: the key latch, fetch, the timer update, and the end of a tick
that raised a fatal error (R80, R81, R212, R226, R230). -/

namespace Sys2Proof.Machine

/-- `key_state[k] <- v` where `k` is a key; a sentinel changes nothing (R231). -/
def latchKey (keys : Vector Bool 16) (k : Nat) (v : Bool) : Vector Bool 16 :=
  if h : k < Config.numKeys then keys.set k v else keys

/-- `KeyLatchUpdate` of R230: the press, then the release. -/
def latchKeys (keys : Vector Bool 16) (i : TickInput) : Vector Bool 16 :=
  latchKey (latchKey keys i.pressed true) i.released false

/-- The start of a tick, before fetch: `should_draw` is cleared and the key latch updated (R80). -/
def State.beginTick (s : State) : State :=
  { s with shouldDraw := false, keyState := latchKeys s.keyState s.input }

/-- May an instruction be fetched at this address (R81)? -/
def fetchable (a : Word) : Bool :=
  decide (a.toNat % 2 = 0 ∧ a.toNat + 1 < Config.memSize)

/-- The big-endian word at an address (R51). -/
def State.wordAt (s : State) (a : Nat) : Word := wordOfBytes (s.byteAt a) (s.byteAt (a + 1))

/-- `Fetch()` of R81: the word at `pc` and the state with `pc` advanced, or the fault. -/
def State.fetch (s : State) : Except FatalRecord (Word × State) :=
  if fetchable s.pc then .ok (s.wordAt s.pc.toNat, { s with pc := s.pc + 2 })
  else .error ⟨.fetchFault, s.pc, .address s.pc.toNat⟩

/-- Has a 60 Hz period elapsed between two clock readings (R224)?  Compared exactly. -/
def periodElapsed (now last : Millis) : Bool := decide (1000 ≤ (Config.timerHz : Rat) * (now.val - last.val))

/-- A timer one lower where it is not zero (R226). -/
def countDown (t : Byte) : Byte := if t = 0 then 0 else t - 1

/-- `TimerUpdate(now)` of R226. -/
def State.timerUpdate (s : State) (now : Millis) : State :=
  { s with
    DT := if periodElapsed now s.lastTick then countDown s.DT else s.DT
    ST := if periodElapsed now s.lastTick then countDown s.ST else s.ST
    lastTick := if periodElapsed now s.lastTick then now else s.lastTick
    vblank := periodElapsed now s.lastTick || s.vblank }

/-- The inputs of this tick are used up. -/
def State.consumeInput (s : State) : State :=
  { s with inputs := s.inputs.tail, ticks := s.ticks + 1 }

/-- The end of a tick that raised a fatal error: the pre-tick state, with the error recorded (R212). -/
def State.abortTick (s : State) (r : FatalRecord) : State := { s with fault := some r }

/-- The end of a tick whose instruction left `t`; `s` is the pre-tick state (R80, R212). -/
def State.endTick (s t : State) : State :=
  match t.fault with
  | some r => s.abortTick r
  | none => (t.timerUpdate t.input.now).consumeInput

/-- Two bytes of an instruction placed in memory, unchecked: what `withFetchWord` stores. -/
def State.placeWord (s : State) (a : Nat) (w : Word) : State :=
  { s with mem := Memory.writeAll s.params s.mem a [highByte w, lowByte w] }

end Sys2Proof.Machine
end

