-- ==== Sys2Proof/Machine/Step.lean ====
section
/-! DEFINITION. One tick of the machine (R80), and the host's way to place an instruction where the next tick fetches it. -/

namespace Sys2Proof.Machine

/-- One tick of a machine that has a program and no fatal error (R80).  `s` is the pre-tick state. -/
def tick (s : State) : Host.Outcome State Fault Refusal :=
  match s.beginTick.fetch with
  | .error r => .next (s.abortTick r)
  | .ok (w, f) =>
    match decode w with
    | .error _ => .next (s.abortTick ⟨.illegalInstruction, s.pc, .word s.pc w⟩)
    | .ok i =>
      match exec i f with
      | .next t => .next (s.endTick t)
      | .fault e => .fault e
      | .refused e => .refused e

/-- One step: a tick, where there is one (R212, R254). -/
def step (s : State) : Host.Outcome State Fault Refusal :=
  match s.fault with
  | some r => .fault (.halted r)
  | none => if s.loaded then tick s else .refused .noProgram

/-- The state with the word of a table row where the next step fetches: at `pc` if a tick could fetch there, and else at
the program base, with `pc` there and the machine marked loaded, as `load_program` would leave it (DESIGN CHOICE,
log entry 5). -/
def State.withFetchWord (s : State) (nbits w : Nat) : State :=
  if s.loaded && fetchable s.pc then
    { s.placeWord s.pc.toNat (tableWord nbits w) with fault := none }
  else
    { s.placeWord Config.progBase (tableWord nbits w) with
        fault := none
        pc := BitVec.ofNat 16 Config.progBase
        loaded := true }

end Sys2Proof.Machine
end

