-- ==== Sys2Proof/Machine/HostInterface.lean ====
section
/-! DEFINITION. What the host can do to the machine between ticks and what it reads (R236): loading the program, the
outputs, and lining up inputs. -/

namespace Sys2Proof.Machine

/-- What `load_program` answers (R251, R252, R254). -/
inductive LoadResult where
  /-- The image is in memory. -/
  | ok (s : State)
  /-- The image does not fit; the state is unchanged (R252). -/
  | imageTooLarge
  /-- A program was loaded before; the state is unchanged (R254). -/
  | refused
deriving DecidableEq, Repr

/-- `load_program(bytes)` of R251. -/
def State.loadProgram (s : State) (bytes : List Byte) : LoadResult :=
  if s.loaded then .refused
  else if Config.maxImage < bytes.length then .imageTooLarge
  else .ok { s with
    mem := Memory.writeAll s.params s.mem Config.progBase bytes
    pc := BitVec.ofNat 16 Config.progBase
    loaded := true }

/-- The output `should_beep` (R38, R228). -/
def State.shouldBeep (s : State) : Bool := s.ST != 0

/-- The output `framebuffer_view` (R34, R236). -/
def State.framebufferView (s : State) : Frame := s.fb

/-- The host lines up the inputs of one more tick, after those already lined up (R236). -/
def State.queueInput (s : State) (i : TickInput) : State := { s with inputs := s.inputs ++ [i] }

end Sys2Proof.Machine
end

