-- ==== Sys2Proof/Safety.lean ====
section
/-! DEFINITION. What claims call a good state and a safe run. -/

namespace Sys2Proof.Machine

/-- The invariant of memory: it has its canonical form, and every listed byte lies in the program area 0x200 to 0xFFF, so
that the reserved region holds what `initialize` left there (R31, R54). -/
def State.Inv (s : State) : Prop :=
  Memory.wf s.params s.mem ∧ ∀ c ∈ s.mem, 0x200 ≤ c.1 ∧ c.1 ≤ 0xFFF

/-- A tick has a step from here: a program is loaded and no fatal error is recorded (R212, R254). -/
def State.Runs (s : State) : Prop := s.loaded = true ∧ s.fault = none

/-- `k` ticks complete from here with no fatal error. -/
def SafeRun : Nat → State → Prop
  | 0, s => s.Runs
  | k + 1, s => s.Runs ∧ ∃ t, step s = .next t ∧ SafeRun k t

end Sys2Proof.Machine
end

