-- ==== Sys2Proof/Certificates/Slice0/Obligations.lean ====
section
/-! DEFINITION. What is to be proved of the model, statement by statement.  In a statement about `exec`, the state `s` is
the one the instruction executes in: the key latch is updated and `pc` is the instruction's address plus 2 (R80, R81).
An equation `t = { s with … }` is the frame: every part of the state it does not name is as before. -/

/-! ### Vocabulary of the statements -/

namespace Sys2Proof.Claims

open Sys2Proof.Machine

/-- Has a 60 Hz period elapsed at the tick that starts in `s` (R224)? -/
abbrev periodElapsedAt (s : State) : Prop :=
  1000 ≤ (60 : Rat) * (s.input.now.val - s.lastTick.val)

/-- A timer after a period (R226): one lower, and never below 0. -/
def oneLower (v : Byte) : Byte := BitVec.ofNat 8 (v.toNat - 1)

/-- The state in which the tick that starts in `s` executes its instruction (R80). -/
def executing (s : State) : State :=
  { s with shouldDraw := false, keyState := latchKeys s.keyState s.input, pc := s.pc + 2 }

/-- The instruction at `pc`, where one can be fetched and decoded (R76, R81). -/
def fetches (s : State) (i : Instr) : Prop :=
  s.pc.toNat % 2 = 0 ∧ s.pc.toNat ≤ 0xFFE ∧ decode (s.byteAt s.pc.toNat ++ s.byteAt (s.pc.toNat + 1)) = .ok i

/-- Does bit `c` of sprite row `r` land on the pixel (px, py), for a draw in state `s` (R173)?  Clipped bits land
nowhere. -/
def bitLandsOn (s : State) (x y : Reg) (px : Fin 64) (py : Fin 32) (r c : Nat) : Prop :=
  (s.byteAt (s.transferAddress r)).getLsbD (7 - c) = true ∧
  if s.params.quirks.clip then
    (s.reg x).toNat % 64 + c = px.val ∧ (s.reg y).toNat % 32 + r = py.val
  else
    ((s.reg x).toNat % 64 + c) % 64 = px.val ∧ ((s.reg y).toNat % 32 + r) % 32 = py.val

/-- Does some set bit of the sprite of `n` rows land on the pixel (R173)? -/
def spriteCovers (s : State) (x y : Reg) (n : BitVec 4) (px : Fin 64) (py : Fin 32) : Prop :=
  ∃ r c, r < n.toNat ∧ c < 8 ∧ bitLandsOn s x y px py r c

/-- Every byte of the sprite can be read (R55, R171). -/
def spriteReadable (s : State) (n : BitVec 4) : Prop :=
  ∀ r, r < n.toNat → s.transferAddress r ≤ 0xFFF

/-- The draw is not stalled by display wait (R172). -/
def drawProceeds (s : State) : Prop :=
  s.params.quirks.displayWait = true → s.vblank = true

/-- The instructions R21 lists as writing VF as a side effect. -/
def writesFlag (s : State) : Instr → Prop
  | .orReg _ _ | .andReg _ _ | .xorReg _ _ => s.params.quirks.vfReset = true
  | .addReg _ _ | .sub _ _ | .shr _ _ | .subn _ _ | .shl _ _ | .drw _ _ _ => True
  | _ => False

/-- The instructions with VF among the registers they name as destination: `x = 15`, and FX65 with `x = 15`. -/
def destinationIsFlag : Instr → Prop
  | .ldImm x _ | .addImm x _ | .ldReg x _ | .orReg x _ | .andReg x _ | .xorReg x _ | .addReg x _ | .sub x _
  | .shr x _ | .subn x _ | .shl x _ | .rnd x _ | .ldVxDt x | .ldVxK x | .ldVxMem x => x = 15
  | _ => False

/-- The control transfers and the two instructions that may re-execute: all others leave `pc` at `A + 2` (R24). -/
def mayMovePc : Instr → Prop
  | .ret | .jp _ | .call _ | .seImm _ _ | .sneImm _ _ | .seReg _ _ | .sneReg _ _ | .jpV0 _ | .drw _ _ _
  | .skp _ | .sknp _ | .ldVxK _ => True
  | _ => False

/-- The instructions R25 lists as writing `I`. -/
def writesIndex (s : State) : Instr → Prop
  | .ldI _ | .addIVx _ | .ldFVx _ => True
  | .ldMemVx _ | .ldVxMem _ => s.params.quirks.indexAdvance = true
  | _ => False

/-- The two instructions R50 lists as writing `mem`. -/
def storesBytes : Instr → Prop
  | .ldBVx _ | .ldMemVx _ => True
  | _ => False

/-- The address of a transfer that fails the store check of R56, with the error it raises. -/
def storeRaises (a : Nat) (cause : FatalCause) : Prop :=
  (0xFFF < a ∧ cause = .memoryFault) ∨ (a < 0x200 ∧ cause = .protectedWrite)

end Sys2Proof.Claims

open Sys2Proof Sys2Proof.Machine Sys2Proof.Claims

/-! ### Encoding -/

/-- R75, R78: encoding and decoding lose no bit of any instruction. -/
def Obligations.DecodingAnEncodedInstructionGivesItBack : Prop :=
  ∀ i : Instr, decode (encode i) = .ok i

/-- R78: no bit of a legal word is ignored, so each word has one meaning and each instruction one word. -/
def Obligations.EncodingADecodedWordGivesItBack : Prop :=
  ∀ (w : Word) (i : Instr), decode w = .ok i → encode i = w

/-- R76, R77: a word decodes exactly where it has the fixed bits of a row of R75, and then of one row only, the decoded
instruction's.  The values of the rows are decisions D2, D3 and D4 of the specification (log entry 6). -/
def Obligations.WordDecodesIffItHasTheBitsOfOneRow : Prop :=
  ∀ w : Word, ((∃ i, decode w = .ok i) ↔ wordWf w = true) ∧
    ∀ i, decode w = .ok i → (rowsOf w).map OpcodeRow.mnemonic = [i.mnemonic]

/-- R75: words written out from the table's encodings (95_test_vectors.md, V-E1 to V-E9) mean what the table says.  The
values are decisions D2, D3 and D4 of the specification (log entry 6). -/
def Obligations.WrittenOutWordsDecodeAsTheTableSays : Prop :=
  decode 0x00E0 = .ok .cls ∧ decode 0x00EE = .ok .ret ∧ decode 0xB123 = .ok (.jpV0 0x123) ∧
  decode 0x5120 = .ok (.seReg 1 2) ∧ decode 0x9120 = .ok (.sneReg 1 2) ∧ decode 0x6A05 = .ok (.ldImm 10 5) ∧
  decode 0x7A03 = .ok (.addImm 10 3) ∧ decode 0x812E = .ok (.shl 1 2) ∧ decode 0xC3FF = .ok (.rnd 3 0xFF) ∧
  decode 0xD012 = .ok (.drw 0 1 2) ∧ decode 0xE19E = .ok (.skp 1) ∧ decode 0xE1A1 = .ok (.sknp 1) ∧
  decode 0xF165 = .ok (.ldVxMem 1) ∧ decode 0x0123 = .error .illegalZero ∧
  decode 0x5121 = .error .illegalRegisterSkip ∧ decode 0x812F = .error .illegalArithmetic ∧
  decode 0xE19F = .error .illegalKey ∧ decode 0xF1FF = .error .illegalMisc

/-! ### Reset and load -/

/-- R43, R250: what `initialize` leaves, for every configuration and clock reading, the font of R32 included.  That
`vblank` starts false is decision D14 of the specification. -/
def Obligations.InitializeLeavesTheResetState : Prop :=
  ∀ (p : Parameters) (now0 : Millis) (s : State), s = State.initialize p now0 →
    (∀ r : Reg, s.reg r = 0) ∧ s.pc = 0 ∧ s.I = 0 ∧ s.stack = Vector.replicate 32 0 ∧ s.sp = 0 ∧ s.DT = 0 ∧ s.ST = 0 ∧
    s.lastTick = now0 ∧ (∀ px py, s.fb.pixel px py = false) ∧ (∀ k : Fin 16, s.keyState[k.val] = false) ∧
    s.vblank = false ∧ s.shouldDraw = false ∧ s.fault = none ∧ s.loaded = false ∧
    (∀ j : Fin 80, s.byteAt (p.fontBase.val + j.val) = p.fontData[j.val]) ∧
    (∀ a, a < p.fontBase.val ∨ p.fontBase.val + 80 ≤ a → s.byteAt a = 0)

/-- R251: a first image of at most 3584 bytes is copied to 0x200 byte for byte, and `pc` is 0x200.  That the load keeps the
memory invariant is about the canonical form, the model's own (log entry 7). -/
def Obligations.LoadProgramCopiesTheImage : Prop :=
  ∀ (s : State) (bytes : List Byte), s.Inv → s.loaded = false → bytes.length ≤ 3584 →
    ∃ t, s.loadProgram bytes = .ok t ∧ t.Inv ∧ t.pc = 0x200 ∧ t.loaded = true ∧
      (∀ j (h : j < bytes.length), t.byteAt (0x200 + j) = bytes[j]) ∧
      (∀ a, a < 0x200 ∨ 0x200 + bytes.length ≤ a → t.byteAt a = s.byteAt a) ∧
      t = { s with mem := t.mem, pc := 0x200, loaded := true }

/-- R252, R254: an image that does not fit is reported, and a second load is refused (decision D23). -/
def Obligations.LoadProgramReportsWhatItDoesNotLoad : Prop :=
  ∀ (s : State) (bytes : List Byte),
    (s.loaded = true → s.loadProgram bytes = .refused) ∧
    (s.loaded = false → 3584 < bytes.length → s.loadProgram bytes = .imageTooLarge)

/-! ### The tick -/

/-- R80: where the word at `pc` decodes to `i`, a step is `exec i` with the key latch updated and `pc` advanced before
it, and after it the timer update, or the rollback where the instruction raised a fatal error.  The rollback is decision
D8 of the specification, the exact clock comparison D16, `vblank` D14 and the place of the key latch update D17.  That a completed tick uses up one input
and counts is the model's own (log entry 1). -/
def Obligations.StepRunsTheDecodedInstruction : Prop :=
  ∀ (s : State) (i : Instr), s.Runs → fetches s i →
    (step s = match exec i (executing s) with
      | .next t => .next (s.endTick t)
      | .fault e => .fault e
      | .refused e => .refused e) ∧
    (∀ t r, t.fault = some r → s.endTick t = { s with fault := some r }) ∧
    (∀ t : State, t.fault = none → periodElapsedAt t →
      s.endTick t = { t with DT := oneLower t.DT, ST := oneLower t.ST, lastTick := t.input.now, vblank := true,
                             inputs := t.inputs.tail, ticks := t.ticks + 1 }) ∧
    (∀ t : State, t.fault = none → ¬ periodElapsedAt t →
      s.endTick t = { t with inputs := t.inputs.tail, ticks := t.ticks + 1 })

/-- R80, R212, R254: a machine with a program and no fatal error always has a step. -/
def Obligations.EveryRunningStateHasAStep : Prop :=
  ∀ s : State, s.Runs → ∃ t, step s = .next t

/-- R212, R254: there is no step after a fatal error (decision D8), and none before a program is loaded (decision D23). -/
def Obligations.NoStepAfterAFatalErrorOrBeforeALoad : Prop :=
  (∀ (s : State) (r : FatalRecord), s.fault = some r → step s = .fault (.halted r)) ∧
  (∀ s : State, s.fault = none → s.loaded = false → step s = .refused .noProgram)

/-- R81: a fetch at an odd `pc` or above 0xFFE is fatal (decision D5). -/
def Obligations.FetchAtABadAddressIsFatal : Prop :=
  ∀ s : State, s.Runs → (s.pc.toNat % 2 = 1 ∨ 0xFFE < s.pc.toNat) →
    step s = .next { s with fault := some ⟨.fetchFault, s.pc, .address s.pc.toNat⟩ }

/-- R77: an illegal word is fatal (decision D4), and the rest of the state is as before the tick (decision D8). -/
def Obligations.IllegalWordIsFatal : Prop :=
  ∀ (s : State) (w : Word), s.Runs → s.pc.toNat % 2 = 0 → s.pc.toNat ≤ 0xFFE →
    w = s.byteAt s.pc.toNat ++ s.byteAt (s.pc.toNat + 1) → wordWf w = false →
    step s = .next { s with fault := some ⟨.illegalInstruction, s.pc, .word s.pc w⟩ }

/-- R212, R215: a fatal error is precise.  Whatever raised it, the state is the one before the tick but for the record,
which holds the instruction's address (decisions D8 and D9). -/
def Obligations.FatalTickLeavesThePreTickState : Prop :=
  ∀ (s t : State) (r : FatalRecord), step s = .next t → t.fault = some r →
    t = { s with fault := some r } ∧ r.address = s.pc

/-- R31, R50, R54: every step keeps memory canonical and inside the program area, so that no store reaches below 0x200
(decision D7).  The canonical form is the model's own (log entry 7). -/
def Obligations.EveryStepKeepsTheMemoryInvariant : Prop :=
  ∀ s t : State, s.Inv → step s = .next t → t.Inv

/-- R43: the invariant holds after `initialize`, with any configuration, and so at reset.  The canonical form is the
model's own (log entry 7). -/
def Obligations.InitializedMemoryHasTheInvariant : Prop :=
  (∀ (p : Parameters) (now0 : Millis), (State.initialize p now0).Inv) ∧ State.reset.Inv

/-- R31: the font and the rest of the reserved region are never overwritten (decision D7). -/
def Obligations.NoStepChangesTheReservedRegion : Prop :=
  ∀ s t : State, s.Inv → step s = .next t → ∀ a, a < 0x200 →
    t.byteAt a = s.byteAt a ∧ t.byteAt a = resetByte s.params a

/-- R40, R39: no step changes the configuration, the program stays loaded (decision D23), and a tick that completes
without an error uses up one input (log entry 1). -/
def Obligations.NoStepChangesTheConfiguration : Prop :=
  ∀ s t : State, step s = .next t → t.params = s.params ∧ t.loaded = s.loaded ∧
    (t.fault = none → t.inputs = s.inputs.tail ∧ t.ticks = s.ticks + 1)

/-- R226, R227: in a tick that completes, both timers go one lower, never below 0, exactly where a period has elapsed, on
the value FX15 or FX18 wrote where that is the instruction, and the reference becomes `now` (decision D16) and `vblank`
true (decision D14). -/
def Obligations.CompletedTickUpdatesTheTimers : Prop :=
  ∀ (s t : State) (i : Instr), s.Runs → fetches s i → step s = .next t → t.fault = none →
    ∃ dt st : Byte,
      ((∀ x, i ≠ .ldDtVx x) → dt = s.DT) ∧ (∀ x, i = .ldDtVx x → dt = s.reg x) ∧
      ((∀ x, i ≠ .ldStVx x) → st = s.ST) ∧ (∀ x, i = .ldStVx x → st = s.reg x) ∧
      (periodElapsedAt s → t.DT = oneLower dt ∧ t.ST = oneLower st ∧ t.lastTick = s.input.now ∧ t.vblank = true) ∧
      (¬ periodElapsedAt s → t.DT = dt ∧ t.ST = st ∧ t.lastTick = s.lastTick)

/-- R230: in a tick that completes, a key is up if this tick released it, else down if this tick pressed it, else as
before (decision D17). -/
def Obligations.CompletedTickLatchesTheKeys : Prop :=
  ∀ s t : State, step s = .next t → t.fault = none → ∀ k : Fin 16,
    (s.input.released = k.val → t.keyState[k.val] = false) ∧
    (s.input.released ≠ k.val → s.input.pressed = k.val → t.keyState[k.val] = true) ∧
    (s.input.released ≠ k.val → s.input.pressed ≠ k.val → t.keyState[k.val] = s.keyState[k.val])

/-- R38, R172: after a tick that completes, `should_draw` is set exactly where a sprite was drawn, one of no rows too
(decision D13), or the screen cleared with `CLS_SETS_DRAW` (decision D15).  A draw that display wait stalls draws nothing
(decision D14, log entry 15). -/
def Obligations.CompletedTickSetsShouldDraw : Prop :=
  ∀ (s t : State) (i : Instr), s.Runs → fetches s i → step s = .next t → t.fault = none →
    (t.shouldDraw = true ↔
      (∃ x y n, i = .drw x y n ∧ drawProceeds s) ∨ (i = .cls ∧ s.params.clsSetsDraw = true))

/-! ### Rules of the whole machine -/

/-- R34: the framebuffer is mutated only by the clear-screen and sprite-draw instructions. -/
def Obligations.OnlyDisplayInstructionsChangeTheFramebuffer : Prop :=
  ∀ (i : Instr) (s t : State), exec i s = .next t → i ≠ .cls → (∀ x y n, i ≠ .drw x y n) → t.fb = s.fb

/-- R50: FX33 and FX55 alone write memory; every other form leaves every byte. -/
def Obligations.OnlyStoringInstructionsChangeMemory : Prop :=
  ∀ (i : Instr) (s t : State), exec i s = .next t → ¬ storesBytes i →
    t.mem = s.mem ∧ ∀ a, t.byteAt a = s.byteAt a

/-- R26, R27: no other instruction than call and return touches the stack. -/
def Obligations.OnlyCallAndReturnTouchTheStack : Prop :=
  ∀ (i : Instr) (s t : State), exec i s = .next t → i ≠ .ret → (∀ nnn, i ≠ .call nnn) →
    t.stack = s.stack ∧ t.sp = s.sp

/-- R25: only the instructions listed there write `I`, the block transfers under `Q.index_advance` alone. -/
def Obligations.OnlyListedInstructionsWriteTheIndex : Prop :=
  ∀ (i : Instr) (s t : State), exec i s = .next t → ¬ writesIndex s i → t.I = s.I

/-- R21: only the instructions listed there write VF as a side effect; any other changes it as its destination alone. -/
def Obligations.OnlyListedInstructionsWriteTheFlag : Prop :=
  ∀ (i : Instr) (s t : State), exec i s = .next t → ¬ writesFlag s i → ¬ destinationIsFlag i →
    t.reg 15 = s.reg 15

/-- R24: every instruction but the listed ones leaves `pc` at `A + 2`, where it stands when it executes. -/
def Obligations.OnlyListedInstructionsMoveThePc : Prop :=
  ∀ (i : Instr) (s t : State), exec i s = .next t → ¬ mayMovePc i → t.pc = s.pc

/-- R28, R29, R35, R37, R39, R40: what instructions do not touch.  FX15 alone writes `DT`, FX18 alone `ST`, a draw under
display wait alone `vblank` (decision D14), and none the clock reference, the key latch, the configuration or the inputs. -/
def Obligations.InstructionsLeaveTheHostSideAlone : Prop :=
  ∀ (i : Instr) (s t : State), exec i s = .next t →
    ((∀ x, i ≠ .ldDtVx x) → t.DT = s.DT) ∧ ((∀ x, i ≠ .ldStVx x) → t.ST = s.ST) ∧
    ((s.params.quirks.displayWait = true → ∀ x y n, i ≠ .drw x y n) → t.vblank = s.vblank) ∧
    t.lastTick = s.lastTick ∧ t.keyState = s.keyState ∧ t.params = s.params ∧ t.loaded = s.loaded ∧
    t.inputs = s.inputs ∧ t.ticks = s.ticks

/-- R136: the random byte reaches no instruction but CXKK (decision D3). -/
def Obligations.TheRandomByteReachesOnlyRandom : Prop :=
  ∀ (i : Instr) (s t : State) (input : TickInput) (rest : List TickInput) (r : Byte), (∀ x kk, i ≠ .rnd x kk) →
    exec i { s with inputs := input :: rest } = .next t →
    exec i { s with inputs := { input with rnd := r } :: rest } =
      .next { t with inputs := { input with rnd := r } :: rest }

/-- R30, R58: two canonical memories that hold the same bytes are the same data.  The canonical form is the model's own
(log entry 7). -/
def Obligations.CanonicalMemoriesWithTheSameBytesAreEqual : Prop :=
  ∀ (p : Parameters) (m m' : Memory), Memory.wf p m → Memory.wf p m' →
    (∀ a, Memory.read p m a = Memory.read p m' a) → m = m'

/-- R56, R58: a checked store puts the byte there, changes no other, and is read back; a failing address raises the error
R56 names for it (decisions D6 and D7).  That the store keeps the memory invariant is about the canonical form, the
model's own (log entry 7). -/
def Obligations.CheckedStoreWritesOneByteOrRaises : Prop :=
  ∀ (s : State) (a : Nat) (v : Byte), s.Inv →
    (0xFFF < a → s.memWrite a v = .error (.memoryFault, .address a)) ∧
    (a < 0x200 → s.memWrite a v = .error (.protectedWrite, .address a)) ∧
    (0x200 ≤ a → a ≤ 0xFFF → ∃ t, s.memWrite a v = .ok t ∧ t.Inv ∧ t = { s with mem := t.mem } ∧
      ∀ b, t.byteAt b = if b = a then v else s.byteAt b)

/-! ### Control transfer -/

/-- R101: return pops the stack into `pc`, and with an empty stack raises StackUnderflow. -/
def Obligations.ReturnPopsOrUnderflows : Prop :=
  ∀ s : State,
    (0 < s.sp.val → ∃ t, exec .ret s = .next t ∧ s.stack[s.sp.val - 1]? = some t.pc ∧ t.sp.val = s.sp.val - 1 ∧
      t = { s with pc := t.pc, sp := t.sp }) ∧
    (s.sp.val = 0 →
      exec .ret s = .next { s with fault := some ⟨.stackUnderflow, s.pc - 2, .address (s.pc - 2).toNat⟩ })

/-- R102: the unconditional jump sets `pc` and nothing else. -/
def Obligations.JumpSetsThePc : Prop :=
  ∀ (s : State) (nnn : BitVec 12), ∃ t, exec (.jp nnn) s = .next t ∧ t.pc.toNat = nnn.toNat ∧ t = { s with pc := t.pc }

/-- R103: call pushes `pc`, already past the call, and jumps; with a full stack it raises StackOverflow. -/
def Obligations.CallPushesOrOverflows : Prop :=
  ∀ (s : State) (nnn : BitVec 12),
    (s.sp.val < 32 → ∃ t, exec (.call nnn) s = .next t ∧ t.pc.toNat = nnn.toNat ∧ t.sp.val = s.sp.val + 1 ∧
      t.stack[s.sp.val]? = some s.pc ∧ (∀ j : Fin 32, j.val ≠ s.sp.val → t.stack[j.val] = s.stack[j.val]) ∧
      t = { s with pc := t.pc, stack := t.stack, sp := t.sp }) ∧
    (s.sp.val = 32 →
      exec (.call nnn) s = .next { s with fault := some ⟨.stackOverflow, s.pc - 2, .address (s.pc - 2).toNat⟩ })

/-- R101, R103: a call and then the return at its target resume after the call, with the depth as before. -/
def Obligations.ReturnUndoesACall : Prop :=
  ∀ (s t : State) (nnn : BitVec 12) (pc' : Word), s.sp.val < 32 → exec (.call nnn) s = .next t →
    exec .ret { t with pc := pc' } = .next { s with stack := t.stack }

/-- R104 to R107: the skips advance `pc` by an additional 2 where their condition holds, and write nothing else. -/
def Obligations.SkipsAdvanceThePcByTwo : Prop :=
  ∀ (s : State) (x y : Reg) (kk : Byte),
    exec (.seImm x kk) s = .next { s with pc := if s.reg x = kk then s.pc + 2 else s.pc } ∧
    exec (.sneImm x kk) s = .next { s with pc := if s.reg x ≠ kk then s.pc + 2 else s.pc } ∧
    exec (.seReg x y) s = .next { s with pc := if s.reg x = s.reg y then s.pc + 2 else s.pc } ∧
    exec (.sneReg x y) s = .next { s with pc := if s.reg x ≠ s.reg y then s.pc + 2 else s.pc }

/-- R108: the offset jump adds `V[0]`, or `V[x]` under `Q.jump_vx`, to the address, exactly and unchecked (decision
D29). -/
def Obligations.OffsetJumpAddsTheSelectedRegister : Prop :=
  ∀ (s : State) (nnn : BitVec 12), ∃ t, exec (.jpV0 nnn) s = .next t ∧ t = { s with pc := t.pc } ∧
    (s.params.quirks.jumpVx = false → t.pc.toNat = nnn.toNat + (s.reg 0).toNat) ∧
    (s.params.quirks.jumpVx = true → ∀ x : Reg, x.val = nnn.toNat / 256 → t.pc.toNat = nnn.toNat + (s.reg x).toNat)

/-! ### ALU -/

/-- R121, R122: the immediate forms write or accumulate with 8-bit wraparound and have no flag effect. -/
def Obligations.ImmediatesWriteOneRegister : Prop :=
  ∀ (s : State) (x : Reg) (kk : Byte),
    (∃ t, exec (.ldImm x kk) s = .next t ∧ t.reg x = kk ∧ (∀ r, r ≠ x → t.reg r = s.reg r) ∧ t = { s with V := t.V }) ∧
    (∃ t, exec (.addImm x kk) s = .next t ∧ (t.reg x).toNat = ((s.reg x).toNat + kk.toNat) % 256 ∧
      (∀ r, r ≠ x → t.reg r = s.reg r) ∧ t = { s with V := t.V })

/-- R126: `set` copies a register and writes no flag. -/
def Obligations.SetCopiesARegister : Prop :=
  ∀ (s : State) (x y : Reg), ∃ t, exec (.ldReg x y) s = .next t ∧ t.reg x = s.reg y ∧
    (∀ r, r ≠ x → t.reg r = s.reg r) ∧ t = { s with V := t.V }

/-- R127 to R129: the bitwise forms, with VF reset under `Q.vf_reset`.  That VF is 0 then also where `x` is 15 rests on
the write order of R123, decision D11. -/
def Obligations.BitwiseFormsWriteTheResult : Prop :=
  ∀ (s : State) (x y : Reg) (i : Instr) (v : Byte),
    (i = .orReg x y ∧ v = s.reg x ||| s.reg y) ∨ (i = .andReg x y ∧ v = s.reg x &&& s.reg y) ∨
      (i = .xorReg x y ∧ v = s.reg x ^^^ s.reg y) →
    ∃ t, exec i s = .next t ∧ t = { s with V := t.V } ∧ (∀ r, r ≠ x → r ≠ 15 → t.reg r = s.reg r) ∧
      (s.params.quirks.vfReset = true → t.reg 15 = 0 ∧ (x ≠ 15 → t.reg x = v)) ∧
      (s.params.quirks.vfReset = false → t.reg x = v ∧ (x ≠ 15 → t.reg 15 = s.reg 15))

/-- R130: the sum modulo 256, and VF 1 where it exceeds 255.  That VF is the flag also where `x` is 15 rests on the write
order of R123, decision D11. -/
def Obligations.AddWritesTheSumAndTheCarry : Prop :=
  ∀ (s : State) (x y : Reg), ∃ t, exec (.addReg x y) s = .next t ∧ t = { s with V := t.V } ∧
    (x ≠ 15 → (t.reg x).toNat = ((s.reg x).toNat + (s.reg y).toNat) % 256) ∧
    t.reg 15 = (if 255 < (s.reg x).toNat + (s.reg y).toNat then 1 else 0) ∧
    ∀ r, r ≠ x → r ≠ 15 → t.reg r = s.reg r

/-- R131, R133: the differences modulo 256, and VF 1 where there is no borrow.  That VF is the flag also where `x` is 15
rests on the write order of R123, decision D11. -/
def Obligations.SubtractionsWriteTheDifferenceAndNoBorrow : Prop :=
  ∀ (s : State) (x y : Reg) (i : Instr) (a b : Byte),
    (i = .sub x y ∧ a = s.reg x ∧ b = s.reg y) ∨ (i = .subn x y ∧ a = s.reg y ∧ b = s.reg x) →
    ∃ t, exec i s = .next t ∧ t = { s with V := t.V } ∧
      (x ≠ 15 → ((t.reg x).toNat : Int) = ((a.toNat : Int) - b.toNat) % 256) ∧
      t.reg 15 = (if b.toNat ≤ a.toNat then 1 else 0) ∧
      ∀ r, r ≠ x → r ≠ 15 → t.reg r = s.reg r

/-- R132, R134: the shifts by one of `V[y]`, or of `V[x]` under `Q.shift_in_place`, and VF the evicted bit.  That VF is
the flag also where `x` is 15 rests on the write order of R123, decision D11. -/
def Obligations.ShiftsWriteTheResultAndTheEvictedBit : Prop :=
  ∀ (s : State) (x y : Reg) (v : Byte), v = (if s.params.quirks.shiftInPlace then s.reg x else s.reg y) →
    (∃ t, exec (.shr x y) s = .next t ∧ t = { s with V := t.V } ∧ (x ≠ 15 → (t.reg x).toNat = v.toNat / 2) ∧
      (t.reg 15).toNat = v.toNat % 2 ∧ ∀ r, r ≠ x → r ≠ 15 → t.reg r = s.reg r) ∧
    (∃ t, exec (.shl x y) s = .next t ∧ t = { s with V := t.V } ∧ (x ≠ 15 → (t.reg x).toNat = v.toNat * 2 % 256) ∧
      (t.reg 15).toNat = v.toNat / 128 ∧ ∀ r, r ≠ x → r ≠ 15 → t.reg r = s.reg r)

/-- R137: the masked random byte of the tick, whatever it is (decision D3: the instruction is not in the source). -/
def Obligations.RandomMasksTheRandomByte : Prop :=
  ∀ (s : State) (x : Reg) (kk : Byte), ∃ t, exec (.rnd x kk) s = .next t ∧ t.reg x = s.input.rnd &&& kk ∧
    (∀ r, r ≠ x → t.reg r = s.reg r) ∧ t = { s with V := t.V }

/-! ### Index register and memory -/

/-- R150, R152: `set-index` loads a 12-bit address, and `font-character` the address of the glyph of a low nibble. -/
def Obligations.IndexLoadsAnAddress : Prop :=
  ∀ (s : State) (nnn : BitVec 12) (x : Reg),
    (∃ t, exec (.ldI nnn) s = .next t ∧ t.I.toNat = nnn.toNat ∧ t = { s with I := t.I }) ∧
    (∃ t, exec (.ldFVx x) s = .next t ∧ t.I.toNat = s.params.fontBase.val + 5 * ((s.reg x).toNat % 16) ∧
      t = { s with I := t.I })

/-- R151: a register is added into `I` modulo 65536, and VF is not written (decision D21). -/
def Obligations.AddToIndexWraps : Prop :=
  ∀ (s : State) (x : Reg), ∃ t, exec (.addIVx x) s = .next t ∧
    t.I.toNat = (s.I.toNat + (s.reg x).toNat) % 65536 ∧ t = { s with I := t.I }

/-- R153: three decimal digits at `I`, `I + 1`, `I + 2`, and no other byte, where all three may be written. -/
def Obligations.BcdStoresThreeDigits : Prop :=
  ∀ (s : State) (x : Reg), 0x200 ≤ s.transferAddress 0 → s.transferAddress 2 ≤ 0xFFF →
    ∃ t, exec (.ldBVx x) s = .next t ∧ t = { s with mem := t.mem } ∧
      (∀ a, a < s.transferAddress 0 ∨ s.transferAddress 2 < a → t.byteAt a = s.byteAt a) ∧
      (s.Inv → (t.byteAt (s.transferAddress 0)).toNat = (s.reg x).toNat / 100 ∧
        (t.byteAt (s.transferAddress 1)).toNat = (s.reg x).toNat / 10 % 10 ∧
        (t.byteAt (s.transferAddress 2)).toNat = (s.reg x).toNat % 10)

/-- R154: `V[0]` to `V[x]` at `I` to `I + x`, and no other byte, where all of them may be written; `I` advances by `x + 1`
modulo 65536 (decision D21) under `Q.index_advance`. -/
def Obligations.StoreRegistersCopiesThemToMemory : Prop :=
  ∀ (s : State) (x : Reg), 0x200 ≤ s.transferAddress 0 → s.transferAddress x.val ≤ 0xFFF →
    ∃ t, exec (.ldMemVx x) s = .next t ∧ t = { s with mem := t.mem, I := t.I } ∧
      t.I.toNat = (if s.params.quirks.indexAdvance then (s.I.toNat + x.val + 1) % 65536 else s.I.toNat) ∧
      (∀ a, a < s.transferAddress 0 ∨ s.transferAddress x.val < a → t.byteAt a = s.byteAt a) ∧
      (s.Inv → ∀ r : Reg, r ≤ x → t.byteAt (s.transferAddress r.val) = s.reg r)

/-- R155: `V[0]` to `V[x]` from `I` to `I + x`, where all of them exist, no other register and no memory; `I` advances by
`x + 1` modulo 65536 (decision D21) under `Q.index_advance`. -/
def Obligations.LoadRegistersCopiesThemFromMemory : Prop :=
  ∀ (s : State) (x : Reg), s.transferAddress x.val ≤ 0xFFF →
    ∃ t, exec (.ldVxMem x) s = .next t ∧ t = { s with V := t.V, I := t.I } ∧
      t.I.toNat = (if s.params.quirks.indexAdvance then (s.I.toNat + x.val + 1) % 65536 else s.I.toNat) ∧
      (∀ r : Reg, r ≤ x → t.reg r = s.byteAt (s.transferAddress r.val)) ∧ (∀ r : Reg, x < r → t.reg r = s.reg r)

/-- R153 to R156, R213: the first address of a transfer, in ascending order, that fails the check raises the error R55 or
R56 names for it, and the instruction has no other effect (decisions D6, D7 and D10). -/
def Obligations.TransferRaisesAtTheFirstBadAddress : Prop :=
  ∀ (s : State) (x : Reg) (k : Nat),
    (∀ cause, k ≤ 2 ∨ k ≤ x.val → storeRaises (s.transferAddress k) cause →
      (∀ j, j < k → 0x200 ≤ s.transferAddress j ∧ s.transferAddress j ≤ 0xFFF) →
      (k ≤ 2 → exec (.ldBVx x) s =
        .next { s with fault := some ⟨cause, s.pc - 2, .address (s.transferAddress k)⟩ }) ∧
      (k ≤ x.val → exec (.ldMemVx x) s =
        .next { s with fault := some ⟨cause, s.pc - 2, .address (s.transferAddress k)⟩ })) ∧
    (k ≤ x.val → 0xFFF < s.transferAddress k → (∀ j, j < k → s.transferAddress j ≤ 0xFFF) →
      exec (.ldVxMem x) s =
        .next { s with fault := some ⟨.memoryFault, s.pc - 2, .address (s.transferAddress k)⟩ })

/-- R154, R155: storing registers and loading them at the same `I` and `x` restores them, whatever they held between. -/
def Obligations.LoadAfterStoreRestoresTheRegisters : Prop :=
  ∀ (s t : State) (x : Reg) (between : Vector Byte 16), s.Inv →
    0x200 ≤ s.transferAddress 0 → s.transferAddress x.val ≤ 0xFFF → exec (.ldMemVx x) s = .next t →
    ∃ u, exec (.ldVxMem x) { t with V := between, I := s.I } = .next u ∧ ∀ r : Reg, r ≤ x → u.reg r = s.reg r

/-! ### Display -/

/-- R170: `clear-screen` clears every pixel; whether it sets `should_draw` is the parameter `CLS_SETS_DRAW` (decision
D15). -/
def Obligations.ClearScreenClearsEveryPixel : Prop :=
  ∀ s : State, ∃ t, exec .cls s = .next t ∧ (∀ px py, t.fb.pixel px py = false) ∧
    (s.params.clsSetsDraw = true → t.shouldDraw = true) ∧ (s.params.clsSetsDraw = false → t.shouldDraw = s.shouldDraw) ∧
    t = { s with fb := t.fb, shouldDraw := t.shouldDraw }

/-- R171 to R173: a draw that is not stalled toggles exactly the pixels the sprite covers, clipped or wrapped, and VF says
whether one of them was set.  Coordinates are those before the instruction, also where a register is VF.  The reading
order is decision D12 of the specification, what is clipped and a draw of no rows D13, `vblank` and display wait D14. -/
def Obligations.DrawTogglesTheCoveredPixels : Prop :=
  ∀ (s : State) (x y : Reg) (n : BitVec 4), drawProceeds s → spriteReadable s n →
    ∃ t, exec (.drw x y n) s = .next t ∧
      (∀ px py, spriteCovers s x y n px py → t.fb.pixel px py = !s.fb.pixel px py) ∧
      (∀ px py, ¬ spriteCovers s x y n px py → t.fb.pixel px py = s.fb.pixel px py) ∧
      ((∃ px py, spriteCovers s x y n px py ∧ s.fb.pixel px py = true) → t.reg 15 = 1) ∧
      ((¬ ∃ px py, spriteCovers s x y n px py ∧ s.fb.pixel px py = true) → t.reg 15 = 0) ∧
      (∀ r, r ≠ 15 → t.reg r = s.reg r) ∧ t.shouldDraw = true ∧
      t.vblank = (if s.params.quirks.displayWait then false else s.vblank) ∧
      t = { s with V := t.V, fb := t.fb, vblank := t.vblank, shouldDraw := true }

/-- R172: under display wait a draw waits for the vblank latch, leaving everything but `pc`, which goes back to the
instruction (decision D14). -/
def Obligations.DrawWaitsForVblank : Prop :=
  ∀ (s : State) (x y : Reg) (n : BitVec 4), s.params.quirks.displayWait = true → s.vblank = false →
    exec (.drw x y n) s = .next { s with pc := s.pc - 2 }

/-- R171: a sprite byte above 0xFFF is fatal, and the draw has no other effect (decisions D6 and D12). -/
def Obligations.DrawRaisesOnAnUnreadableSprite : Prop :=
  ∀ (s : State) (x y : Reg) (n : BitVec 4) (k : Nat), drawProceeds s → k < n.toNat → 0xFFF < s.transferAddress k →
    (∀ j, j < k → s.transferAddress j ≤ 0xFFF) →
    exec (.drw x y n) s =
      .next { s with fault := some ⟨.memoryFault, s.pc - 2, .address (s.transferAddress k)⟩ }

/-- R174: drawing the same sprite at the same place twice restores the framebuffer, and the second draw collides where a
drawn pixel was clear before the first: R174's "if the sprite has at least one drawn pixel" leaves out that pixels set
before the first draw are cleared by it, and the algorithm of R173 is followed (log entry 12).  The place is the same
unless a coordinate is VF and the collision flag moves it.  `vblank` is set before the second draw, so that display wait
does not stall it (decisions D12, D13 and D14 as for any draw). -/
def Obligations.DrawingTwiceRestoresTheFramebuffer : Prop :=
  ∀ (s t : State) (x y : Reg) (n : BitVec 4), drawProceeds s → spriteReadable s n →
    exec (.drw x y n) s = .next t →
    (t.reg x).toNat % 64 = (s.reg x).toNat % 64 → (t.reg y).toNat % 32 = (s.reg y).toNat % 32 →
    ∃ u, exec (.drw x y n) { t with vblank := true } = .next u ∧ u.fb = s.fb ∧
      ((∃ px py, spriteCovers s x y n px py ∧ s.fb.pixel px py = false) → u.reg 15 = 1) ∧
      ((¬ ∃ px py, spriteCovers s x y n px py ∧ s.fb.pixel px py = false) → u.reg 15 = 0)

/-- R174: after `clear-screen`, a draw that is not stalled and whose bytes exist leaves set exactly the sprite's drawn
pixels, and VF 0 (decisions D12, D13 and D14 as for any draw). -/
def Obligations.DrawAfterClearLeavesOnlyTheSprite : Prop :=
  ∀ (s t : State) (x y : Reg) (n : BitVec 4), drawProceeds s → spriteReadable s n → exec .cls s = .next t →
    ∃ u, exec (.drw x y n) t = .next u ∧ u.reg 15 = 0 ∧
      ∀ px py, u.fb.pixel px py = true ↔ spriteCovers s x y n px py

/-! ### Timers and keys -/

/-- R190 to R192: the timer instructions copy a timer into a register, or a register into a timer. -/
def Obligations.TimerInstructionsCopy : Prop :=
  ∀ (s : State) (x : Reg),
    (∃ t, exec (.ldVxDt x) s = .next t ∧ t.reg x = s.DT ∧ (∀ r, r ≠ x → t.reg r = s.reg r) ∧ t = { s with V := t.V }) ∧
    exec (.ldDtVx x) s = .next { s with DT := s.reg x } ∧
    exec (.ldStVx x) s = .next { s with ST := s.reg x }

/-- R194, R195: the key skips test the latch for the key a register names.  That they test the latch is R193, decision D17
of the specification (log entry 17). -/
def Obligations.KeySkipsTestTheLatch : Prop :=
  ∀ (s : State) (x : Reg) (k : Fin 16), (s.reg x).toNat = k.val →
    exec (.skp x) s = .next { s with pc := if s.keyState[k.val] = true then s.pc + 2 else s.pc } ∧
    exec (.sknp x) s = .next { s with pc := if s.keyState[k.val] = false then s.pc + 2 else s.pc }

/-- R194, R195: a key skip whose register holds more than 15 is fatal (decision D18). -/
def Obligations.KeySkipsRaiseOnABadIndex : Prop :=
  ∀ (s : State) (x : Reg) (i : Instr), i = .skp x ∨ i = .sknp x → 15 < (s.reg x).toNat →
    exec i s = .next { s with fault := some ⟨.keyIndexFault, s.pc - 2, .key (s.pc - 2) (s.reg x)⟩ }

/-- R196: a release edge ends the wait and its key index goes to the register; without one, a press or not (decision D19),
the instruction runs again. -/
def Obligations.WaitForKeyWaitsForARelease : Prop :=
  ∀ (s : State) (x : Reg),
    (s.input.released ≤ 15 → ∃ t, exec (.ldVxK x) s = .next t ∧ (t.reg x).toNat = s.input.released ∧
      (∀ r, r ≠ x → t.reg r = s.reg r) ∧ t = { s with V := t.V }) ∧
    (15 < s.input.released → exec (.ldVxK x) s = .next { s with pc := s.pc - 2 })
end

