-- ==== Sys2Proof/Laws/Config.lean ====
section
/-! SUPPORT. The types agree with the fixed numbers of R8: a number changed alone does not compile. -/

namespace Sys2Proof

theorem Config.byte_width : Byte = BitVec Config.regWidth := rfl
theorem Config.reg_count : Reg = Fin Config.numRegs := rfl
theorem Config.pc_width : Word = BitVec Config.pcWidth := rfl
theorem Config.index_width : Word = BitVec Config.indexWidth := rfl
theorem Config.stack_entry_width : Word = BitVec Config.stackEntryWidth := rfl

/-- The call stack has its capacity, a depth is at most that, and a font base leaves the font below the program space
(R26, R32). -/
theorem Config.scalar_bounds :
    Vector Word 32 = Vector Word Config.stackCap ∧ Fin 33 = Fin (Config.stackCap + 1) ∧
    Fin 433 = Fin (Config.progBase - Config.fontBytes + 1) := ⟨rfl, rfl, rfl⟩

/-- `MAX_IMAGE` and the size of the font, as R8 and R33 give them. -/
theorem Config.derived_sizes : Config.maxImage = 3584 ∧ Config.fontBytes = 80 := ⟨rfl, rfl⟩

/-- The bound on `FONT_BASE` of R32. -/
theorem Parameters.fontBase_bound (p : Parameters) : p.fontBase.val + Config.fontBytes ≤ Config.progBase := by
  simp
  omega

end Sys2Proof
end

