-- ==== Sys2Proof/Laws/Decode.lean ====
section
/-! SUPPORT. The fields of a word put together by the encoder. -/

namespace Sys2Proof

@[simp] theorem regBits_toNat (x : Reg) : (regBits x).toNat = x.val := rfl

theorem packXYN_toNat (o : BitVec 4) (x y : Reg) (n : BitVec 4) :
    (packXYN o x y n).toNat = o.toNat * 4096 + x.val * 256 + y.val * 16 + n.toNat := by
  simp only [packXYN, BitVec.toNat_append, regBits_toNat]
  have := n.isLt
  have := x.isLt
  have := y.isLt
  rw [← Nat.shiftLeft_add_eq_or_of_lt (by omega), ← Nat.shiftLeft_add_eq_or_of_lt (by omega),
    ← Nat.shiftLeft_add_eq_or_of_lt (by omega)]
  simp only [Nat.shiftLeft_eq]
  omega

theorem packXK_toNat (o : BitVec 4) (x : Reg) (kk : Byte) :
    (packXK o x kk).toNat = o.toNat * 4096 + x.val * 256 + kk.toNat := by
  simp only [packXK, BitVec.toNat_append, regBits_toNat]
  have := kk.isLt
  have := x.isLt
  rw [← Nat.shiftLeft_add_eq_or_of_lt (by omega), ← Nat.shiftLeft_add_eq_or_of_lt (by omega)]
  simp only [Nat.shiftLeft_eq]
  omega

theorem packA_toNat (o : BitVec 4) (nnn : BitVec 12) : (packA o nnn).toNat = o.toNat * 4096 + nnn.toNat := by
  simp only [packA, BitVec.toNat_append]
  have := nnn.isLt
  rw [← Nat.shiftLeft_add_eq_or_of_lt (by omega)]
  simp only [Nat.shiftLeft_eq]

theorem opField_toNat (w : Word) : (opField w).toNat = w.toNat / 4096 := by
  have := w.isLt
  simp only [opField, BitVec.extractLsb'_toNat, Nat.shiftRight_eq_div_pow]
  omega

theorem xField_val (w : Word) : (xField w).val = w.toNat / 256 % 16 := by
  simp only [xField, BitVec.val_toFin, BitVec.extractLsb'_toNat, Nat.shiftRight_eq_div_pow]

theorem yField_val (w : Word) : (yField w).val = w.toNat / 16 % 16 := by
  simp only [yField, BitVec.val_toFin, BitVec.extractLsb'_toNat, Nat.shiftRight_eq_div_pow]

theorem nField_toNat (w : Word) : (nField w).toNat = w.toNat % 16 := by
  simp [nField, BitVec.extractLsb'_toNat]

theorem kkField_toNat (w : Word) : (kkField w).toNat = w.toNat % 256 := by
  simp [kkField, BitVec.extractLsb'_toNat]

theorem nnnField_toNat (w : Word) : (nnnField w).toNat = w.toNat % 4096 := by
  simp [nnnField, BitVec.extractLsb'_toNat]

section packXYN
variable (o : BitVec 4) (x y : Reg) (n : BitVec 4)

@[simp] theorem opField_packXYN : opField (packXYN o x y n) = o := by
  apply BitVec.eq_of_toNat_eq
  rw [opField_toNat, packXYN_toNat]
  have := n.isLt
  omega

@[simp] theorem xField_packXYN : xField (packXYN o x y n) = x := by
  apply Fin.ext
  rw [xField_val, packXYN_toNat]
  have := n.isLt
  omega

@[simp] theorem yField_packXYN : yField (packXYN o x y n) = y := by
  apply Fin.ext
  rw [yField_val, packXYN_toNat]
  have := n.isLt
  omega

@[simp] theorem nField_packXYN : nField (packXYN o x y n) = n := by
  apply BitVec.eq_of_toNat_eq
  rw [nField_toNat, packXYN_toNat]
  have := n.isLt
  omega

end packXYN

section packXK
variable (o : BitVec 4) (x : Reg) (kk : Byte)

@[simp] theorem opField_packXK : opField (packXK o x kk) = o := by
  apply BitVec.eq_of_toNat_eq
  rw [opField_toNat, packXK_toNat]
  have := kk.isLt
  omega

@[simp] theorem xField_packXK : xField (packXK o x kk) = x := by
  apply Fin.ext
  rw [xField_val, packXK_toNat]
  have := kk.isLt
  omega

@[simp] theorem kkField_packXK : kkField (packXK o x kk) = kk := by
  apply BitVec.eq_of_toNat_eq
  rw [kkField_toNat, packXK_toNat]
  have := kk.isLt
  omega

end packXK

section packA
variable (o : BitVec 4) (nnn : BitVec 12)

@[simp] theorem opField_packA : opField (packA o nnn) = o := by
  apply BitVec.eq_of_toNat_eq
  rw [opField_toNat, packA_toNat]
  have := nnn.isLt
  omega

@[simp] theorem nnnField_packA : nnnField (packA o nnn) = nnn := by
  apply BitVec.eq_of_toNat_eq
  rw [nnnField_toNat, packA_toNat]
  have := nnn.isLt
  omega

end packA

/-- The bytes of a word put back together. -/
@[simp] theorem wordOfBytes_highByte_lowByte (w : Word) : wordOfBytes (highByte w) (lowByte w) = w := by
  apply BitVec.eq_of_toNat_eq
  have := w.isLt
  simp only [wordOfBytes, highByte, lowByte, BitVec.toNat_append, BitVec.extractLsb'_toNat, Nat.shiftRight_eq_div_pow]
  rw [← Nat.shiftLeft_add_eq_or_of_lt (by omega)]
  simp only [Nat.shiftLeft_eq]
  omega

/-! ### A word put together again from its fields -/

theorem packXK_fields (w : Word) {o : BitVec 4} {kk : Byte} (ho : opField w = o) (hk : kkField w = kk) :
    packXK o (xField w) kk = w := by
  subst ho hk
  apply BitVec.eq_of_toNat_eq
  rw [packXK_toNat, opField_toNat, xField_val, kkField_toNat]
  omega

theorem packXYN_fields (w : Word) {o n : BitVec 4} (ho : opField w = o) (hn : nField w = n) :
    packXYN o (xField w) (yField w) n = w := by
  subst ho hn
  apply BitVec.eq_of_toNat_eq
  rw [packXYN_toNat, opField_toNat, xField_val, yField_val, nField_toNat]
  omega

theorem packA_fields (w : Word) {o : BitVec 4} (ho : opField w = o) : packA o (nnnField w) = w := by
  subst ho
  apply BitVec.eq_of_toNat_eq
  rw [packA_toNat, opField_toNat, nnnField_toNat]
  omega

/-- The sixteen values of a nibble, for a case split on `opField` or `nField`. -/
theorem nibble_cases : ∀ o : BitVec 4,
    o = 0 ∨ o = 1 ∨ o = 2 ∨ o = 3 ∨ o = 4 ∨ o = 5 ∨ o = 6 ∨ o = 7 ∨ o = 8 ∨ o = 9 ∨ o = 10 ∨ o = 11 ∨ o = 12 ∨
      o = 13 ∨ o = 14 ∨ o = 15 := by decide

/-! ### A row's bits as arithmetic

The four masks of the table, so that which row a word has becomes a question about numbers. -/

theorem and_F000_toNat (w : Word) : (w &&& 0xF000#16).toNat = w.toNat / 4096 * 4096 := by
  have h : w &&& 0xF000#16 = (w >>> 12) <<< 12 := by
    apply BitVec.eq_of_getLsbD_eq
    intro i hi
    interval_cases i <;> simp
  have := w.isLt
  rw [h, BitVec.toNat_shiftLeft, BitVec.toNat_ushiftRight, Nat.shiftLeft_eq, Nat.shiftRight_eq_div_pow]
  omega
theorem and_lowMask_toNat (w : Word) (k : Nat) (m : Word) (hm : m.toNat = 2 ^ k - 1) : (w &&& m).toNat = w.toNat % 2 ^ k := by
  rw [BitVec.toNat_and, hm, Nat.and_two_pow_sub_one_eq_mod]
theorem and_or_toNat (w a b : Word) (h : a &&& b = 0#16) : (w &&& (a ||| b)).toNat = (w &&& a).toNat + (w &&& b).toNat := by
  have : w &&& (a ||| b) = (w &&& a) ||| (w &&& b) := by
    apply BitVec.eq_of_getLsbD_eq
    intro i hi
    simp [Bool.and_or_distrib_left]
  rw [this, ← BitVec.add_eq_or_of_and_eq_zero, BitVec.toNat_add_of_and_eq_zero]
  all_goals
    apply BitVec.eq_of_getLsbD_eq
    intro i hi
    have := congrArg (·.getLsbD i) h
    simp at this ⊢
    grind
theorem hasWord_F000 (m : String) (v w : Word) :
    OpcodeRow.hasWord ⟨m, 0xF000, v⟩ w = decide (w.toNat / 4096 * 4096 = v.toNat) := by
  rw [OpcodeRow.hasWord, beq_eq_decide, ← and_F000_toNat, decide_eq_decide]
  exact BitVec.toNat_inj.symm
theorem hasWord_F00F (m : String) (v w : Word) :
    OpcodeRow.hasWord ⟨m, 0xF00F, v⟩ w = decide (w.toNat / 4096 * 4096 + w.toNat % 16 = v.toNat) := by
  rw [OpcodeRow.hasWord, beq_eq_decide, ← and_F000_toNat, show w.toNat % 16 = _ from (and_lowMask_toNat w 4 0xF rfl).symm, ← and_or_toNat _ _ _ rfl, decide_eq_decide]
  exact BitVec.toNat_inj.symm
theorem hasWord_F0FF (m : String) (v w : Word) :
    OpcodeRow.hasWord ⟨m, 0xF0FF, v⟩ w = decide (w.toNat / 4096 * 4096 + w.toNat % 256 = v.toNat) := by
  rw [OpcodeRow.hasWord, beq_eq_decide, ← and_F000_toNat, show w.toNat % 256 = _ from (and_lowMask_toNat w 8 0xFF rfl).symm, ← and_or_toNat _ _ _ rfl, decide_eq_decide]
  exact BitVec.toNat_inj.symm
theorem hasWord_FFFF (m : String) (v w : Word) :
    OpcodeRow.hasWord ⟨m, 0xFFFF, v⟩ w = decide (w.toNat = v.toNat) := by
  have h : w &&& (OpcodeRow.mk m 0xFFFF v).mask = w := BitVec.and_allOnes
  rw [OpcodeRow.hasWord, beq_eq_decide, h, decide_eq_decide]
  exact BitVec.toNat_inj.symm

end Sys2Proof
end

