-- ==== Sys2Proof/Laws/Memory.lean ====
section
/-! SUPPORT. Memory as bytes: a write changes one byte, keeps the canonical form, and two canonical memories with the same
bytes are one list. -/

namespace Sys2Proof.Machine

variable {p : Parameters}

/-- The list is sorted by address. -/
abbrev Memory.sorted (m : Memory) : Prop := m.Pairwise fun c d => c.1 < d.1

/-- An address below every listed one reads as at reset. -/
theorem Memory.read_of_lt {m : Memory} {a : Nat} (h : ∀ c ∈ m, a < c.1) : Memory.read p m a = resetByte p a := by
  induction m with
  | nil => rfl
  | cons c m ih =>
    have := h c (by simp)
    rw [Memory.read, if_neg (by omega), ih fun d hd => h d (by simp [hd])]

/-- A write leaves every other byte alone, whatever the list. -/
theorem Memory.read_write_other (m : Memory) {a b : Nat} (v : Byte) (h : b ≠ a) :
    Memory.read p (Memory.write p m a v) b = Memory.read p m b := by
  induction m with
  | nil => rw [Memory.write]; split <;> simp [Memory.read, h]
  | cons c m ih =>
    obtain ⟨k, u⟩ := c
    rw [Memory.write]
    split
    · split <;> simp [Memory.read, h]
    · split
      · subst k; split <;> simp [Memory.read, h]
      · simp [Memory.read, ih]

/-- A write to a sorted memory is read back. -/
theorem Memory.read_write_self {m : Memory} (hm : Memory.sorted m) (a : Nat) (v : Byte) :
    Memory.read p (Memory.write p m a v) a = v := by
  induction m with
  | nil => rw [Memory.write]; split <;> simp_all [Memory.read]
  | cons c m ih =>
    obtain ⟨k, u⟩ := c
    obtain ⟨hk, hm⟩ := List.pairwise_cons.1 hm
    rw [Memory.write]
    split
    · rename_i hlt
      split
      · rename_i hv
        subst hv
        exact Memory.read_of_lt fun d hd => by
          rcases List.mem_cons.1 hd with rfl | hd
          · exact hlt
          · exact hlt.trans (hk d hd)
      · simp [Memory.read]
    · split
      · rename_i he
        subst he
        split
        · rename_i hv
          subst hv
          exact Memory.read_of_lt hk
        · simp [Memory.read]
      · rename_i hne
        rw [Memory.read, if_neg hne, ih hm]

/-- Reading after a write, in a sorted memory. -/
theorem Memory.read_write {m : Memory} (hm : Memory.sorted m) (a b : Nat) (v : Byte) :
    Memory.read p (Memory.write p m a v) b = if b = a then v else Memory.read p m b := by
  split
  · subst b; exact Memory.read_write_self hm a v
  · exact Memory.read_write_other m v ‹_›

/-- Every entry after a write was there before, or is the one written. -/
theorem Memory.mem_write {m : Memory} {a : Nat} {v : Byte} {c : Host.Cell} (h : c ∈ Memory.write p m a v) :
    c ∈ m ∨ (c = (a, v) ∧ v ≠ resetByte p a) := by
  induction m with
  | nil => rw [Memory.write] at h; split at h <;> simp_all
  | cons d m ih =>
    obtain ⟨k, u⟩ := d
    rw [Memory.write] at h
    split at h
    · split at h
      · exact .inl h
      · rcases List.mem_cons.1 h with rfl | h
        · exact .inr ⟨rfl, ‹_›⟩
        · exact .inl h
    · split at h
      · split at h
        · exact .inl (List.mem_cons_of_mem _ h)
        · rcases List.mem_cons.1 h with rfl | h
          · exact .inr ⟨rfl, ‹_›⟩
          · exact .inl (List.mem_cons_of_mem _ h)
      · rcases List.mem_cons.1 h with rfl | h
        · simp
        · rcases ih h with h | h
          · simp [h]
          · exact .inr h

/-- A write keeps the canonical form. -/
theorem Memory.write_wf {m : Memory} (h : Memory.wf p m) (a : Nat) (v : Byte) : Memory.wf p (Memory.write p m a v) := by
  refine ⟨?_, fun c hc => ?_⟩
  · have hs := h.1
    clear h
    induction m with
    | nil => rw [Memory.write]; split <;> simp
    | cons d m ih =>
      obtain ⟨k, u⟩ := d
      obtain ⟨hk, hm⟩ := List.pairwise_cons.1 hs
      rw [Memory.write]
      split
      · rename_i hlt
        split
        · exact hs
        · refine List.pairwise_cons.2 ⟨fun d hd => ?_, hs⟩
          rcases List.mem_cons.1 hd with rfl | hd
          · exact hlt
          · exact hlt.trans (hk d hd)
      · split
        · rename_i he
          subst he
          split
          · exact hm
          · exact List.pairwise_cons.2 ⟨hk, hm⟩
        · refine List.pairwise_cons.2 ⟨fun d hd => ?_, ih hm⟩
          rcases Memory.mem_write hd with hd | ⟨rfl, -⟩
          · exact hk d hd
          · simp; omega
  · rcases Memory.mem_write hc with hc | ⟨rfl, hv⟩
    · exact h.2 c hc
    · exact hv

/-- An image leaves the bytes outside it alone. -/
theorem Memory.read_writeAll_other (m : Memory) (bytes : List Byte) {a b : Nat} (h : b < a ∨ a + bytes.length ≤ b) :
    Memory.read p (Memory.writeAll p m a bytes) b = Memory.read p m b := by
  induction bytes generalizing m a with
  | nil => rfl
  | cons v vs ih =>
    simp only [List.length_cons] at h
    rw [Memory.writeAll, ih _ (by omega), Memory.read_write_other _ _ (by omega)]

/-- An image keeps the canonical form. -/
theorem Memory.writeAll_wf {m : Memory} (h : Memory.wf p m) (a : Nat) (bytes : List Byte) :
    Memory.wf p (Memory.writeAll p m a bytes) := by
  induction bytes generalizing m a with
  | nil => exact h
  | cons v vs ih => exact ih (Memory.write_wf h a v) (a + 1)

/-- Every entry after an image was there before, or lies inside the image. -/
theorem Memory.mem_writeAll {m : Memory} {a : Nat} {bytes : List Byte} {c : Host.Cell}
    (h : c ∈ Memory.writeAll p m a bytes) : c ∈ m ∨ (a ≤ c.1 ∧ c.1 < a + bytes.length) := by
  induction bytes generalizing m a with
  | nil => exact .inl h
  | cons v vs ih =>
    rcases ih h with h | h
    · rcases Memory.mem_write h with h | ⟨rfl, -⟩
      · exact .inl h
      · simp
    · simp only [List.length_cons]; right; omega

/-- An image is read back. -/
theorem Memory.read_writeAll_self {m : Memory} (hm : Memory.wf p m) (a : Nat) (bytes : List Byte) (j : Nat)
    (hj : j < bytes.length) : Memory.read p (Memory.writeAll p m a bytes) (a + j) = bytes[j] := by
  induction bytes generalizing m a j with
  | nil => simp at hj
  | cons v vs ih =>
    rw [Memory.writeAll]
    cases j with
    | zero =>
      rw [Memory.read_writeAll_other _ _ (by omega)]
      exact Memory.read_write_self hm.1 a v
    | succ j =>
      have := ih (Memory.write_wf hm a v) (a + 1) j (by simpa using hj)
      rw [show a + (j + 1) = a + 1 + j by omega, this, List.getElem_cons_succ]

/-- Outside the program area an unlisted byte is what reset left, above it a zero. -/
theorem resetByte_of_progBase_le {a : Nat} (h : 0x200 ≤ a) : resetByte p a = 0 := by
  rw [resetByte, if_pos h]

end Sys2Proof.Machine
end

