-- ==== Sys2Proof/Laws/State.lean ====
section
/-! SUPPORT. What each named update leaves in each field of the state, one lemma per field, and reading a register after
an update. -/

namespace Sys2Proof.Machine

variable (s : State)

/-! ### `setReg` -/

@[simp] theorem State.setReg_V (r : Reg) (v : Byte) : (s.setReg r v).V = s.V.set r.val v := rfl
@[simp] theorem State.setReg_pc (r : Reg) (v : Byte) : (s.setReg r v).pc = s.pc := rfl
@[simp] theorem State.setReg_I (r : Reg) (v : Byte) : (s.setReg r v).I = s.I := rfl
@[simp] theorem State.setReg_stack (r : Reg) (v : Byte) : (s.setReg r v).stack = s.stack := rfl
@[simp] theorem State.setReg_sp (r : Reg) (v : Byte) : (s.setReg r v).sp = s.sp := rfl
@[simp] theorem State.setReg_DT (r : Reg) (v : Byte) : (s.setReg r v).DT = s.DT := rfl
@[simp] theorem State.setReg_ST (r : Reg) (v : Byte) : (s.setReg r v).ST = s.ST := rfl
@[simp] theorem State.setReg_lastTick (r : Reg) (v : Byte) : (s.setReg r v).lastTick = s.lastTick := rfl
@[simp] theorem State.setReg_mem (r : Reg) (v : Byte) : (s.setReg r v).mem = s.mem := rfl
@[simp] theorem State.setReg_fb (r : Reg) (v : Byte) : (s.setReg r v).fb = s.fb := rfl
@[simp] theorem State.setReg_keyState (r : Reg) (v : Byte) : (s.setReg r v).keyState = s.keyState := rfl
@[simp] theorem State.setReg_fault (r : Reg) (v : Byte) : (s.setReg r v).fault = s.fault := rfl
@[simp] theorem State.setReg_vblank (r : Reg) (v : Byte) : (s.setReg r v).vblank = s.vblank := rfl
@[simp] theorem State.setReg_shouldDraw (r : Reg) (v : Byte) : (s.setReg r v).shouldDraw = s.shouldDraw := rfl
@[simp] theorem State.setReg_loaded (r : Reg) (v : Byte) : (s.setReg r v).loaded = s.loaded := rfl
@[simp] theorem State.setReg_params (r : Reg) (v : Byte) : (s.setReg r v).params = s.params := rfl
@[simp] theorem State.setReg_inputs (r : Reg) (v : Byte) : (s.setReg r v).inputs = s.inputs := rfl
@[simp] theorem State.setReg_ticks (r : Reg) (v : Byte) : (s.setReg r v).ticks = s.ticks := rfl

/-! ### `setFlag` -/

@[simp] theorem State.setFlag_V (c : Bool) : (s.setFlag c).V = s.V.set 15 (flagByte c) := rfl
@[simp] theorem State.setFlag_pc (c : Bool) : (s.setFlag c).pc = s.pc := rfl
@[simp] theorem State.setFlag_I (c : Bool) : (s.setFlag c).I = s.I := rfl
@[simp] theorem State.setFlag_stack (c : Bool) : (s.setFlag c).stack = s.stack := rfl
@[simp] theorem State.setFlag_sp (c : Bool) : (s.setFlag c).sp = s.sp := rfl
@[simp] theorem State.setFlag_DT (c : Bool) : (s.setFlag c).DT = s.DT := rfl
@[simp] theorem State.setFlag_ST (c : Bool) : (s.setFlag c).ST = s.ST := rfl
@[simp] theorem State.setFlag_lastTick (c : Bool) : (s.setFlag c).lastTick = s.lastTick := rfl
@[simp] theorem State.setFlag_mem (c : Bool) : (s.setFlag c).mem = s.mem := rfl
@[simp] theorem State.setFlag_fb (c : Bool) : (s.setFlag c).fb = s.fb := rfl
@[simp] theorem State.setFlag_keyState (c : Bool) : (s.setFlag c).keyState = s.keyState := rfl
@[simp] theorem State.setFlag_fault (c : Bool) : (s.setFlag c).fault = s.fault := rfl
@[simp] theorem State.setFlag_vblank (c : Bool) : (s.setFlag c).vblank = s.vblank := rfl
@[simp] theorem State.setFlag_shouldDraw (c : Bool) : (s.setFlag c).shouldDraw = s.shouldDraw := rfl
@[simp] theorem State.setFlag_loaded (c : Bool) : (s.setFlag c).loaded = s.loaded := rfl
@[simp] theorem State.setFlag_params (c : Bool) : (s.setFlag c).params = s.params := rfl
@[simp] theorem State.setFlag_inputs (c : Bool) : (s.setFlag c).inputs = s.inputs := rfl
@[simp] theorem State.setFlag_ticks (c : Bool) : (s.setFlag c).ticks = s.ticks := rfl

/-! ### `bitwiseFlag` -/

@[simp] theorem State.bitwiseFlag_V : (s.bitwiseFlag).V = if s.params.quirks.vfReset then s.V.set 15 0 else s.V := rfl
@[simp] theorem State.bitwiseFlag_pc : (s.bitwiseFlag).pc = s.pc := rfl
@[simp] theorem State.bitwiseFlag_I : (s.bitwiseFlag).I = s.I := rfl
@[simp] theorem State.bitwiseFlag_stack : (s.bitwiseFlag).stack = s.stack := rfl
@[simp] theorem State.bitwiseFlag_sp : (s.bitwiseFlag).sp = s.sp := rfl
@[simp] theorem State.bitwiseFlag_DT : (s.bitwiseFlag).DT = s.DT := rfl
@[simp] theorem State.bitwiseFlag_ST : (s.bitwiseFlag).ST = s.ST := rfl
@[simp] theorem State.bitwiseFlag_lastTick : (s.bitwiseFlag).lastTick = s.lastTick := rfl
@[simp] theorem State.bitwiseFlag_mem : (s.bitwiseFlag).mem = s.mem := rfl
@[simp] theorem State.bitwiseFlag_fb : (s.bitwiseFlag).fb = s.fb := rfl
@[simp] theorem State.bitwiseFlag_keyState : (s.bitwiseFlag).keyState = s.keyState := rfl
@[simp] theorem State.bitwiseFlag_fault : (s.bitwiseFlag).fault = s.fault := rfl
@[simp] theorem State.bitwiseFlag_vblank : (s.bitwiseFlag).vblank = s.vblank := rfl
@[simp] theorem State.bitwiseFlag_shouldDraw : (s.bitwiseFlag).shouldDraw = s.shouldDraw := rfl
@[simp] theorem State.bitwiseFlag_loaded : (s.bitwiseFlag).loaded = s.loaded := rfl
@[simp] theorem State.bitwiseFlag_params : (s.bitwiseFlag).params = s.params := rfl
@[simp] theorem State.bitwiseFlag_inputs : (s.bitwiseFlag).inputs = s.inputs := rfl
@[simp] theorem State.bitwiseFlag_ticks : (s.bitwiseFlag).ticks = s.ticks := rfl

/-! ### `setPc` -/

@[simp] theorem State.setPc_V (a : Word) : (s.setPc a).V = s.V := rfl
@[simp] theorem State.setPc_pc (a : Word) : (s.setPc a).pc = a := rfl
@[simp] theorem State.setPc_I (a : Word) : (s.setPc a).I = s.I := rfl
@[simp] theorem State.setPc_stack (a : Word) : (s.setPc a).stack = s.stack := rfl
@[simp] theorem State.setPc_sp (a : Word) : (s.setPc a).sp = s.sp := rfl
@[simp] theorem State.setPc_DT (a : Word) : (s.setPc a).DT = s.DT := rfl
@[simp] theorem State.setPc_ST (a : Word) : (s.setPc a).ST = s.ST := rfl
@[simp] theorem State.setPc_lastTick (a : Word) : (s.setPc a).lastTick = s.lastTick := rfl
@[simp] theorem State.setPc_mem (a : Word) : (s.setPc a).mem = s.mem := rfl
@[simp] theorem State.setPc_fb (a : Word) : (s.setPc a).fb = s.fb := rfl
@[simp] theorem State.setPc_keyState (a : Word) : (s.setPc a).keyState = s.keyState := rfl
@[simp] theorem State.setPc_fault (a : Word) : (s.setPc a).fault = s.fault := rfl
@[simp] theorem State.setPc_vblank (a : Word) : (s.setPc a).vblank = s.vblank := rfl
@[simp] theorem State.setPc_shouldDraw (a : Word) : (s.setPc a).shouldDraw = s.shouldDraw := rfl
@[simp] theorem State.setPc_loaded (a : Word) : (s.setPc a).loaded = s.loaded := rfl
@[simp] theorem State.setPc_params (a : Word) : (s.setPc a).params = s.params := rfl
@[simp] theorem State.setPc_inputs (a : Word) : (s.setPc a).inputs = s.inputs := rfl
@[simp] theorem State.setPc_ticks (a : Word) : (s.setPc a).ticks = s.ticks := rfl

/-! ### `skipIf` -/

@[simp] theorem State.skipIf_V (c : Bool) : (s.skipIf c).V = s.V := rfl
@[simp] theorem State.skipIf_pc (c : Bool) : (s.skipIf c).pc = if c then s.pc + 2 else s.pc := rfl
@[simp] theorem State.skipIf_I (c : Bool) : (s.skipIf c).I = s.I := rfl
@[simp] theorem State.skipIf_stack (c : Bool) : (s.skipIf c).stack = s.stack := rfl
@[simp] theorem State.skipIf_sp (c : Bool) : (s.skipIf c).sp = s.sp := rfl
@[simp] theorem State.skipIf_DT (c : Bool) : (s.skipIf c).DT = s.DT := rfl
@[simp] theorem State.skipIf_ST (c : Bool) : (s.skipIf c).ST = s.ST := rfl
@[simp] theorem State.skipIf_lastTick (c : Bool) : (s.skipIf c).lastTick = s.lastTick := rfl
@[simp] theorem State.skipIf_mem (c : Bool) : (s.skipIf c).mem = s.mem := rfl
@[simp] theorem State.skipIf_fb (c : Bool) : (s.skipIf c).fb = s.fb := rfl
@[simp] theorem State.skipIf_keyState (c : Bool) : (s.skipIf c).keyState = s.keyState := rfl
@[simp] theorem State.skipIf_fault (c : Bool) : (s.skipIf c).fault = s.fault := rfl
@[simp] theorem State.skipIf_vblank (c : Bool) : (s.skipIf c).vblank = s.vblank := rfl
@[simp] theorem State.skipIf_shouldDraw (c : Bool) : (s.skipIf c).shouldDraw = s.shouldDraw := rfl
@[simp] theorem State.skipIf_loaded (c : Bool) : (s.skipIf c).loaded = s.loaded := rfl
@[simp] theorem State.skipIf_params (c : Bool) : (s.skipIf c).params = s.params := rfl
@[simp] theorem State.skipIf_inputs (c : Bool) : (s.skipIf c).inputs = s.inputs := rfl
@[simp] theorem State.skipIf_ticks (c : Bool) : (s.skipIf c).ticks = s.ticks := rfl

/-! ### `rewind` -/

@[simp] theorem State.rewind_V : (s.rewind).V = s.V := rfl
@[simp] theorem State.rewind_pc : (s.rewind).pc = s.pc - 2 := rfl
@[simp] theorem State.rewind_I : (s.rewind).I = s.I := rfl
@[simp] theorem State.rewind_stack : (s.rewind).stack = s.stack := rfl
@[simp] theorem State.rewind_sp : (s.rewind).sp = s.sp := rfl
@[simp] theorem State.rewind_DT : (s.rewind).DT = s.DT := rfl
@[simp] theorem State.rewind_ST : (s.rewind).ST = s.ST := rfl
@[simp] theorem State.rewind_lastTick : (s.rewind).lastTick = s.lastTick := rfl
@[simp] theorem State.rewind_mem : (s.rewind).mem = s.mem := rfl
@[simp] theorem State.rewind_fb : (s.rewind).fb = s.fb := rfl
@[simp] theorem State.rewind_keyState : (s.rewind).keyState = s.keyState := rfl
@[simp] theorem State.rewind_fault : (s.rewind).fault = s.fault := rfl
@[simp] theorem State.rewind_vblank : (s.rewind).vblank = s.vblank := rfl
@[simp] theorem State.rewind_shouldDraw : (s.rewind).shouldDraw = s.shouldDraw := rfl
@[simp] theorem State.rewind_loaded : (s.rewind).loaded = s.loaded := rfl
@[simp] theorem State.rewind_params : (s.rewind).params = s.params := rfl
@[simp] theorem State.rewind_inputs : (s.rewind).inputs = s.inputs := rfl
@[simp] theorem State.rewind_ticks : (s.rewind).ticks = s.ticks := rfl

/-! ### `setI` -/

@[simp] theorem State.setI_V (a : Word) : (s.setI a).V = s.V := rfl
@[simp] theorem State.setI_pc (a : Word) : (s.setI a).pc = s.pc := rfl
@[simp] theorem State.setI_I (a : Word) : (s.setI a).I = a := rfl
@[simp] theorem State.setI_stack (a : Word) : (s.setI a).stack = s.stack := rfl
@[simp] theorem State.setI_sp (a : Word) : (s.setI a).sp = s.sp := rfl
@[simp] theorem State.setI_DT (a : Word) : (s.setI a).DT = s.DT := rfl
@[simp] theorem State.setI_ST (a : Word) : (s.setI a).ST = s.ST := rfl
@[simp] theorem State.setI_lastTick (a : Word) : (s.setI a).lastTick = s.lastTick := rfl
@[simp] theorem State.setI_mem (a : Word) : (s.setI a).mem = s.mem := rfl
@[simp] theorem State.setI_fb (a : Word) : (s.setI a).fb = s.fb := rfl
@[simp] theorem State.setI_keyState (a : Word) : (s.setI a).keyState = s.keyState := rfl
@[simp] theorem State.setI_fault (a : Word) : (s.setI a).fault = s.fault := rfl
@[simp] theorem State.setI_vblank (a : Word) : (s.setI a).vblank = s.vblank := rfl
@[simp] theorem State.setI_shouldDraw (a : Word) : (s.setI a).shouldDraw = s.shouldDraw := rfl
@[simp] theorem State.setI_loaded (a : Word) : (s.setI a).loaded = s.loaded := rfl
@[simp] theorem State.setI_params (a : Word) : (s.setI a).params = s.params := rfl
@[simp] theorem State.setI_inputs (a : Word) : (s.setI a).inputs = s.inputs := rfl
@[simp] theorem State.setI_ticks (a : Word) : (s.setI a).ticks = s.ticks := rfl

/-! ### `raise` -/

@[simp] theorem State.raise_V (e : Raise) : (s.raise e).V = s.V := rfl
@[simp] theorem State.raise_pc (e : Raise) : (s.raise e).pc = s.pc := rfl
@[simp] theorem State.raise_I (e : Raise) : (s.raise e).I = s.I := rfl
@[simp] theorem State.raise_stack (e : Raise) : (s.raise e).stack = s.stack := rfl
@[simp] theorem State.raise_sp (e : Raise) : (s.raise e).sp = s.sp := rfl
@[simp] theorem State.raise_DT (e : Raise) : (s.raise e).DT = s.DT := rfl
@[simp] theorem State.raise_ST (e : Raise) : (s.raise e).ST = s.ST := rfl
@[simp] theorem State.raise_lastTick (e : Raise) : (s.raise e).lastTick = s.lastTick := rfl
@[simp] theorem State.raise_mem (e : Raise) : (s.raise e).mem = s.mem := rfl
@[simp] theorem State.raise_fb (e : Raise) : (s.raise e).fb = s.fb := rfl
@[simp] theorem State.raise_keyState (e : Raise) : (s.raise e).keyState = s.keyState := rfl
@[simp] theorem State.raise_fault (e : Raise) : (s.raise e).fault = some ⟨e.1, s.instrAddress, e.2⟩ := rfl
@[simp] theorem State.raise_vblank (e : Raise) : (s.raise e).vblank = s.vblank := rfl
@[simp] theorem State.raise_shouldDraw (e : Raise) : (s.raise e).shouldDraw = s.shouldDraw := rfl
@[simp] theorem State.raise_loaded (e : Raise) : (s.raise e).loaded = s.loaded := rfl
@[simp] theorem State.raise_params (e : Raise) : (s.raise e).params = s.params := rfl
@[simp] theorem State.raise_inputs (e : Raise) : (s.raise e).inputs = s.inputs := rfl
@[simp] theorem State.raise_ticks (e : Raise) : (s.raise e).ticks = s.ticks := rfl

/-! ### `beginTick` -/

@[simp] theorem State.beginTick_V : (s.beginTick).V = s.V := rfl
@[simp] theorem State.beginTick_pc : (s.beginTick).pc = s.pc := rfl
@[simp] theorem State.beginTick_I : (s.beginTick).I = s.I := rfl
@[simp] theorem State.beginTick_stack : (s.beginTick).stack = s.stack := rfl
@[simp] theorem State.beginTick_sp : (s.beginTick).sp = s.sp := rfl
@[simp] theorem State.beginTick_DT : (s.beginTick).DT = s.DT := rfl
@[simp] theorem State.beginTick_ST : (s.beginTick).ST = s.ST := rfl
@[simp] theorem State.beginTick_lastTick : (s.beginTick).lastTick = s.lastTick := rfl
@[simp] theorem State.beginTick_mem : (s.beginTick).mem = s.mem := rfl
@[simp] theorem State.beginTick_fb : (s.beginTick).fb = s.fb := rfl
@[simp] theorem State.beginTick_keyState : (s.beginTick).keyState = latchKeys s.keyState s.input := rfl
@[simp] theorem State.beginTick_fault : (s.beginTick).fault = s.fault := rfl
@[simp] theorem State.beginTick_vblank : (s.beginTick).vblank = s.vblank := rfl
@[simp] theorem State.beginTick_shouldDraw : (s.beginTick).shouldDraw = false := rfl
@[simp] theorem State.beginTick_loaded : (s.beginTick).loaded = s.loaded := rfl
@[simp] theorem State.beginTick_params : (s.beginTick).params = s.params := rfl
@[simp] theorem State.beginTick_inputs : (s.beginTick).inputs = s.inputs := rfl
@[simp] theorem State.beginTick_ticks : (s.beginTick).ticks = s.ticks := rfl

/-! ### `timerUpdate` -/

@[simp] theorem State.timerUpdate_V (now : Millis) : (s.timerUpdate now).V = s.V := rfl
@[simp] theorem State.timerUpdate_pc (now : Millis) : (s.timerUpdate now).pc = s.pc := rfl
@[simp] theorem State.timerUpdate_I (now : Millis) : (s.timerUpdate now).I = s.I := rfl
@[simp] theorem State.timerUpdate_stack (now : Millis) : (s.timerUpdate now).stack = s.stack := rfl
@[simp] theorem State.timerUpdate_sp (now : Millis) : (s.timerUpdate now).sp = s.sp := rfl
@[simp] theorem State.timerUpdate_DT (now : Millis) : (s.timerUpdate now).DT = if periodElapsed now s.lastTick then countDown s.DT else s.DT := rfl
@[simp] theorem State.timerUpdate_ST (now : Millis) : (s.timerUpdate now).ST = if periodElapsed now s.lastTick then countDown s.ST else s.ST := rfl
@[simp] theorem State.timerUpdate_lastTick (now : Millis) : (s.timerUpdate now).lastTick = if periodElapsed now s.lastTick then now else s.lastTick := rfl
@[simp] theorem State.timerUpdate_mem (now : Millis) : (s.timerUpdate now).mem = s.mem := rfl
@[simp] theorem State.timerUpdate_fb (now : Millis) : (s.timerUpdate now).fb = s.fb := rfl
@[simp] theorem State.timerUpdate_keyState (now : Millis) : (s.timerUpdate now).keyState = s.keyState := rfl
@[simp] theorem State.timerUpdate_fault (now : Millis) : (s.timerUpdate now).fault = s.fault := rfl
@[simp] theorem State.timerUpdate_vblank (now : Millis) : (s.timerUpdate now).vblank = (periodElapsed now s.lastTick || s.vblank) := rfl
@[simp] theorem State.timerUpdate_shouldDraw (now : Millis) : (s.timerUpdate now).shouldDraw = s.shouldDraw := rfl
@[simp] theorem State.timerUpdate_loaded (now : Millis) : (s.timerUpdate now).loaded = s.loaded := rfl
@[simp] theorem State.timerUpdate_params (now : Millis) : (s.timerUpdate now).params = s.params := rfl
@[simp] theorem State.timerUpdate_inputs (now : Millis) : (s.timerUpdate now).inputs = s.inputs := rfl
@[simp] theorem State.timerUpdate_ticks (now : Millis) : (s.timerUpdate now).ticks = s.ticks := rfl

/-! ### `consumeInput` -/

@[simp] theorem State.consumeInput_V : (s.consumeInput).V = s.V := rfl
@[simp] theorem State.consumeInput_pc : (s.consumeInput).pc = s.pc := rfl
@[simp] theorem State.consumeInput_I : (s.consumeInput).I = s.I := rfl
@[simp] theorem State.consumeInput_stack : (s.consumeInput).stack = s.stack := rfl
@[simp] theorem State.consumeInput_sp : (s.consumeInput).sp = s.sp := rfl
@[simp] theorem State.consumeInput_DT : (s.consumeInput).DT = s.DT := rfl
@[simp] theorem State.consumeInput_ST : (s.consumeInput).ST = s.ST := rfl
@[simp] theorem State.consumeInput_lastTick : (s.consumeInput).lastTick = s.lastTick := rfl
@[simp] theorem State.consumeInput_mem : (s.consumeInput).mem = s.mem := rfl
@[simp] theorem State.consumeInput_fb : (s.consumeInput).fb = s.fb := rfl
@[simp] theorem State.consumeInput_keyState : (s.consumeInput).keyState = s.keyState := rfl
@[simp] theorem State.consumeInput_fault : (s.consumeInput).fault = s.fault := rfl
@[simp] theorem State.consumeInput_vblank : (s.consumeInput).vblank = s.vblank := rfl
@[simp] theorem State.consumeInput_shouldDraw : (s.consumeInput).shouldDraw = s.shouldDraw := rfl
@[simp] theorem State.consumeInput_loaded : (s.consumeInput).loaded = s.loaded := rfl
@[simp] theorem State.consumeInput_params : (s.consumeInput).params = s.params := rfl
@[simp] theorem State.consumeInput_inputs : (s.consumeInput).inputs = s.inputs.tail := rfl
@[simp] theorem State.consumeInput_ticks : (s.consumeInput).ticks = s.ticks + 1 := rfl

/-! ### `abortTick` -/

@[simp] theorem State.abortTick_V (e : FatalRecord) : (s.abortTick e).V = s.V := rfl
@[simp] theorem State.abortTick_pc (e : FatalRecord) : (s.abortTick e).pc = s.pc := rfl
@[simp] theorem State.abortTick_I (e : FatalRecord) : (s.abortTick e).I = s.I := rfl
@[simp] theorem State.abortTick_stack (e : FatalRecord) : (s.abortTick e).stack = s.stack := rfl
@[simp] theorem State.abortTick_sp (e : FatalRecord) : (s.abortTick e).sp = s.sp := rfl
@[simp] theorem State.abortTick_DT (e : FatalRecord) : (s.abortTick e).DT = s.DT := rfl
@[simp] theorem State.abortTick_ST (e : FatalRecord) : (s.abortTick e).ST = s.ST := rfl
@[simp] theorem State.abortTick_lastTick (e : FatalRecord) : (s.abortTick e).lastTick = s.lastTick := rfl
@[simp] theorem State.abortTick_mem (e : FatalRecord) : (s.abortTick e).mem = s.mem := rfl
@[simp] theorem State.abortTick_fb (e : FatalRecord) : (s.abortTick e).fb = s.fb := rfl
@[simp] theorem State.abortTick_keyState (e : FatalRecord) : (s.abortTick e).keyState = s.keyState := rfl
@[simp] theorem State.abortTick_fault (e : FatalRecord) : (s.abortTick e).fault = some e := rfl
@[simp] theorem State.abortTick_vblank (e : FatalRecord) : (s.abortTick e).vblank = s.vblank := rfl
@[simp] theorem State.abortTick_shouldDraw (e : FatalRecord) : (s.abortTick e).shouldDraw = s.shouldDraw := rfl
@[simp] theorem State.abortTick_loaded (e : FatalRecord) : (s.abortTick e).loaded = s.loaded := rfl
@[simp] theorem State.abortTick_params (e : FatalRecord) : (s.abortTick e).params = s.params := rfl
@[simp] theorem State.abortTick_inputs (e : FatalRecord) : (s.abortTick e).inputs = s.inputs := rfl
@[simp] theorem State.abortTick_ticks (e : FatalRecord) : (s.abortTick e).ticks = s.ticks := rfl

/-! ### Reading after an update -/

@[simp] theorem State.reg_setReg (r q : Reg) (v : Byte) :
    (s.setReg r v).reg q = if q = r then v else s.reg q := by
  simp only [State.reg, State.setReg, Vector.getElem_set, Fin.ext_iff, eq_comm]

@[simp] theorem State.reg_setFlag (q : Reg) (c : Bool) :
    (s.setFlag c).reg q = if q = 15 then flagByte c else s.reg q :=
  s.reg_setReg 15 q (flagByte c)

@[simp] theorem State.reg_bitwiseFlag (q : Reg) :
    s.bitwiseFlag.reg q = if s.params.quirks.vfReset ∧ q = 15 then 0 else s.reg q := by
  have h := s.reg_setReg 15 q 0
  cases hv : s.params.quirks.vfReset <;>
    simp_all [State.reg, State.bitwiseFlag, State.setReg]

/-- A state that differs from another in its registers alone reads its own registers. -/
@[simp] theorem State.reg_withV (v : Vector Byte 16) (q : Reg) : State.reg { s with V := v } q = v[q.val] := rfl

/-- `byteAt` looks at memory and the configuration alone. -/
theorem State.byteAt_congr {s t : State} (hm : t.mem = s.mem) (hp : t.params = s.params) (a : Nat) :
    t.byteAt a = s.byteAt a := by
  rw [State.byteAt, State.byteAt, hm, hp]

/-- `input` looks at the queue and the tick count alone. -/
theorem State.input_congr {s t : State} (hi : t.inputs = s.inputs) (hk : t.ticks = s.ticks) : t.input = s.input := by
  rw [State.input, State.input, hi, hk]

end Sys2Proof.Machine
end

