-- ==== Sys2Proof/Laws/Ops.lean ====
section
/-! SUPPORT. What each shared operation can do, said once: the stack, checked memory access, transfers of several bytes,
and settling an instruction.  Callers cite these lemmas instead of unfolding the operation. -/

namespace Sys2Proof.Machine

variable {s t : State}

/-! ### Settling -/

@[simp] theorem State.settle_ok (s t : State) : s.settle (.ok t) = t := rfl
@[simp] theorem State.settle_error (s : State) (r : Raise) : s.settle (.error r) = s.raise r := rfl

/-- An instruction ends in its result or in the error it raised. -/
theorem State.settle_cases (s : State) (e : Except Raise State) :
    (∃ t, e = .ok t ∧ s.settle e = t) ∨ (∃ r, e = .error r ∧ s.settle e = s.raise r) := by
  cases e
  · exact .inr ⟨_, rfl, rfl⟩
  · exact .inl ⟨_, rfl, rfl⟩

/-! ### The call stack -/

/-- The depth of the stack is at most its capacity. -/
theorem State.sp_le (s : State) : s.sp.val ≤ 32 := Nat.le_of_lt_succ s.sp.isLt

theorem State.push_cases (s : State) (a : Word) :
    (∃ h : s.sp.val < 32,
      s.push a = .ok { s with stack := s.stack.set s.sp.val a, sp := ⟨s.sp.val + 1, Nat.succ_lt_succ h⟩ }) ∨
    (s.sp.val = 32 ∧ s.push a = .error (.stackOverflow, .address s.instrAddress.toNat)) := by
  by_cases h : s.sp.val < 32
  · exact .inl ⟨h, dif_pos h⟩
  · exact .inr ⟨Nat.le_antisymm s.sp_le (Nat.not_lt.1 h), dif_neg h⟩

theorem State.pop_cases (s : State) :
    (∃ h : 0 < s.sp.val, s.pop = .ok (s.stack[s.sp.val - 1], { s with sp := ⟨s.sp.val - 1, by omega⟩ })) ∨
    (s.sp.val = 0 ∧ s.pop = .error (.stackUnderflow, .address s.instrAddress.toNat)) := by
  by_cases h : 0 < s.sp.val
  · exact .inl ⟨h, dif_pos h⟩
  · exact .inr ⟨by omega, dif_neg h⟩

/-! ### One byte -/

theorem State.memRead_ok {a : Nat} (h : a ≤ 0xFFF) : s.memRead a = .ok (s.byteAt a) :=
  if_neg (by simp; omega)

theorem State.memRead_error {a : Nat} (h : 0xFFF < a) : s.memRead a = .error (.memoryFault, .address a) :=
  if_pos h

theorem State.memWrite_ok {a : Nat} (v : Byte) (hl : 0x200 ≤ a) (hh : a ≤ 0xFFF) :
    s.memWrite a v = .ok { s with mem := Memory.write s.params s.mem a v } := by
  rw [State.memWrite, if_neg (by simp; omega), if_neg (by simp; omega)]

theorem State.memWrite_high {a : Nat} (v : Byte) (h : 0xFFF < a) :
    s.memWrite a v = .error (.memoryFault, .address a) :=
  if_pos h

theorem State.memWrite_low {a : Nat} (v : Byte) (h : a < 0x200) :
    s.memWrite a v = .error (.protectedWrite, .address a) := by
  rw [State.memWrite, if_neg (by simp; omega), if_pos (by simpa using h)]

/-- A checked write keeps the memory invariant. -/
theorem State.Inv.write (h : s.Inv) {a : Nat} (v : Byte) (hl : 0x200 ≤ a) (hh : a ≤ 0xFFF) :
    State.Inv { s with mem := Memory.write s.params s.mem a v } :=
  ⟨Memory.write_wf h.1 a v, fun c hc => by
    rcases Memory.mem_write hc with hc | ⟨rfl, -⟩
    · exact h.2 c hc
    · exact ⟨hl, hh⟩⟩

/-- The invariant looks at memory and the configuration alone. -/
theorem State.Inv.congr (h : s.Inv) (hm : t.mem = s.mem) (hp : t.params = s.params) : t.Inv := by
  rw [State.Inv, hm, hp]
  exact h

/-! ### Several bytes -/

/-- Loading bytes all of which exist gives them in order. -/
theorem State.loadBytes_ok (s : State) (a n : Nat) (h : ∀ k, k < n → a + k ≤ 0xFFF) :
    s.loadBytes a n = .ok ((List.range n).map fun k => s.byteAt (a + k)) := by
  induction n generalizing a with
  | zero => rfl
  | succ n ih =>
    have h0 := h 0 (by omega)
    rw [State.loadBytes, State.memRead_ok (by omega)]
    simp only [ih (a + 1) fun k hk => by have := h (k + 1) (by omega); omega]
    rw [List.range_succ_eq_map]
    simp [Function.comp_def, Nat.add_assoc, Nat.add_comm 1]

/-- Loading raises at the first byte that does not exist. -/
theorem State.loadBytes_error (s : State) (a n k : Nat) (hk : k < n) (hbad : 0xFFF < a + k)
    (hok : ∀ j, j < k → a + j ≤ 0xFFF) : s.loadBytes a n = .error (.memoryFault, .address (a + k)) := by
  induction n generalizing a k with
  | zero => omega
  | succ n ih =>
    rw [State.loadBytes]
    cases k with
    | zero => rw [State.memRead_error (by omega)]; rfl
    | succ k =>
      have h0 := hok 0 (by omega)
      rw [State.memRead_ok (by omega)]
      simp only [ih (a + 1) k (by omega) (by omega) fun j hj => by have := hok (j + 1) (by omega); omega]
      congr 3
      omega

/-- Loading never gives the wrong number of bytes. -/
theorem State.loadBytes_length (a n : Nat) {bs : List Byte} (h : s.loadBytes a n = .ok bs) : bs.length = n := by
  induction n generalizing a bs with
  | zero => cases h; rfl
  | succ n ih =>
    rw [State.loadBytes] at h
    split at h
    · cases h
    · split at h
      · cases h
      · rename_i hb
        cases h
        simp [ih _ hb]

/-- Storing bytes to addresses that all may be written is writing them one after another. -/
theorem State.storeBytes_ok (s : State) (a : Nat) (bs : List Byte) (hl : 0x200 ≤ a) (hh : a + bs.length ≤ 0x1000) :
    s.storeBytes a bs = .ok { s with mem := Memory.writeAll s.params s.mem a bs } := by
  induction bs generalizing a s with
  | nil => rfl
  | cons b bs ih =>
    simp only [List.length_cons] at hh
    rw [State.storeBytes, State.memWrite_ok b hl (by omega)]
    exact ih _ (a + 1) (by omega) (by omega)

/-- Storing raises at the first address that may not be written. -/
theorem State.storeBytes_error (s : State) (a k : Nat) (bs : List Byte) (c : FatalCause) (hk : k < bs.length)
    (hbad : (0xFFF < a + k ∧ c = .memoryFault) ∨ (a + k < 0x200 ∧ c = .protectedWrite))
    (hok : ∀ j, j < k → 0x200 ≤ a + j ∧ a + j ≤ 0xFFF) :
    s.storeBytes a bs = .error (c, .address (a + k)) := by
  induction bs generalizing a k s with
  | nil => simp at hk
  | cons b bs ih =>
    rw [State.storeBytes]
    cases k with
    | zero =>
      rcases hbad with ⟨h, rfl⟩ | ⟨h, rfl⟩
      · rw [State.memWrite_high b (a := a) h]; rfl
      · rw [State.memWrite_low b (a := a) h]; rfl
    | succ k =>
      have h0 := hok 0 (by omega)
      rw [State.memWrite_ok b (by omega) (by omega)]
      simp only [List.length_cons] at hk
      have := ih { s with mem := Memory.write s.params s.mem a b } (a + 1) k (by omega)
        (by rw [show a + 1 + k = a + (k + 1) by omega]; exact hbad)
        fun j hj => by have := hok (j + 1) (by omega); omega
      rw [show a + (k + 1) = a + 1 + k by omega]
      exact this

/-- Whatever is stored, only memory changes, and the invariant stays. -/
theorem State.storeBytes_frame (a : Nat) (bs : List Byte) (h : s.storeBytes a bs = .ok t) :
    t = { s with mem := t.mem } ∧ (s.Inv → t.Inv) := by
  induction bs generalizing a s with
  | nil => cases h; exact ⟨rfl, id⟩
  | cons b bs ih =>
    rw [State.storeBytes] at h
    split at h
    · cases h
    · rename_i u hu
      obtain ⟨h1, h2⟩ := ih _ h
      by_cases hh : 0xFFF < a
      · rw [State.memWrite_high b hh] at hu; cases hu
      · by_cases hl : a < 0x200
        · rw [State.memWrite_low b hl] at hu; cases hu
        · rw [State.memWrite_ok b (by omega) (by omega)] at hu
          cases hu
          exact ⟨h1, fun hi => h2 (hi.write b (by omega) (by omega))⟩

/-! ### Registers from a list -/

/-- `setRegs` changes registers alone. -/
theorem State.setRegs_frame (s : State) (i : Nat) (bs : List Byte) :
    s.setRegs i bs = { s with V := (s.setRegs i bs).V } := by
  induction bs generalizing s i with
  | nil => rfl
  | cons b bs ih => rw [State.setRegs, ih]; rfl

/-- `setRegs` gives register `i + k` byte `k` and leaves the others. -/
theorem State.reg_setRegs (s : State) (i : Nat) (bs : List Byte) (h : i + bs.length ≤ 16) (r : Reg) :
    (s.setRegs i bs).reg r = if i ≤ r.val then bs[r.val - i]?.getD (s.reg r) else s.reg r := by
  induction bs generalizing s i with
  | nil => simp [State.setRegs]
  | cons b bs ih =>
    simp only [List.length_cons] at h
    rw [State.setRegs, ih _ _ (by omega), State.reg_setReg]
    have hi : (Fin.ofNat 16 i).val = i := by simp; omega
    have hr : (r = Fin.ofNat 16 i) ↔ r.val = i := by rw [Fin.ext_iff, hi]
    by_cases h1 : i + 1 ≤ r.val
    · have : r.val - i = (r.val - (i + 1)) + 1 := by omega
      have hne : ¬ r = Fin.ofNat 16 i := by rw [hr]; omega
      rw [if_pos h1, if_pos (show i ≤ r.val by omega), if_neg hne, this, List.getElem?_cons_succ]
    · by_cases h2 : r.val = i
      · rw [if_neg h1, if_pos (hr.2 h2), if_pos (Nat.le_of_eq h2.symm), h2]; simp
      · have hne : ¬ r = Fin.ofNat 16 i := by rw [hr]; exact h2
        rw [if_neg h1, if_neg hne, if_neg (show ¬ i ≤ r.val by omega)]

@[simp] theorem State.regsUpTo_length (s : State) (x : Reg) : (s.regsUpTo x).length = x.val + 1 := by
  rw [State.regsUpTo, List.length_take, Vector.length_toList, Config.numRegs]
  omega

theorem State.regsUpTo_getElem (s : State) (x : Reg) (k : Nat) (h : k < (s.regsUpTo x).length) :
    (s.regsUpTo x)[k] = s.reg ⟨k, by rw [State.regsUpTo_length] at h; omega⟩ := by
  simp [State.regsUpTo, State.reg]

end Sys2Proof.Machine
end

