-- ==== Sys2Proof/Laws/Display.lean ====
section
/-! SUPPORT. The framebuffer pixel by pixel, and what drawing does to it: a row toggles the pixels its set bits land on,
and collides where one of them was set. -/

namespace Sys2Proof.Machine

/-! ### Pixels -/

@[simp] theorem Frame.pixel_setPixel (f : Frame) (px qx : Fin 64) (py qy : Fin 32) (v : Bool) :
    (f.setPixel px py v).pixel qx qy = if qx = px ∧ qy = py then v else f.pixel qx qy := by
  by_cases hy : py.val = qy.val
  · by_cases hx : px.val = qx.val
    · simp [Frame.pixel, Frame.setPixel, Fin.ext_iff, hx, hy]
    · simp [Frame.pixel, Frame.setPixel, Fin.ext_iff, hy, hx, Ne.symm hx]
  · simp [Frame.pixel, Frame.setPixel, Fin.ext_iff, hy, Ne.symm hy]

@[simp] theorem Frame.pixel_clear (px : Fin 64) (py : Fin 32) : Frame.clear.pixel px py = false := by
  simp [Frame.pixel, Frame.clear]

/-- A framebuffer is its pixels. -/
theorem Frame.ext_pixel {f g : Frame} (h : ∀ px py, f.pixel px py = g.pixel px py) : f = g := by
  apply Vector.ext
  intro j hj
  apply Vector.ext
  intro i hi
  exact h ⟨i, hi⟩ ⟨j, hj⟩

theorem flipPixel_pixel (d : Frame × Bool) (px qx : Fin 64) (py qy : Fin 32) :
    (flipPixel d px py).1.pixel qx qy = (d.1.pixel qx qy ^^ decide (qx = px ∧ qy = py)) := by
  by_cases h : qx = px ∧ qy = py
  · obtain ⟨rfl, rfl⟩ := h
    unfold flipPixel
    split <;> simp_all
  · unfold flipPixel
    split <;> simp [h]

theorem flipPixel_hit (d : Frame × Bool) (px : Fin 64) (py : Fin 32) :
    (flipPixel d px py).2 = (d.2 || d.1.pixel px py) := by
  unfold flipPixel
  split <;> simp_all

/-! ### One row -/

/-- Column `c` of a row lands on the pixel column `qx`: its bit is set, and it is not clipped. -/
def columnLands (clip : Bool) (x0 : Nat) (row : Byte) (c : Nat) (qx : Fin 64) : Prop :=
  row.getLsbD (7 - c) = true ∧ (clip = true → x0 + c < 64) ∧ (x0 + c) % 64 = qx.val

/-- One of the first `k` columns of a row lands on the pixel column `qx`. -/
def rowLands (clip : Bool) (x0 : Nat) (row : Byte) (k : Nat) (qx : Fin 64) : Prop :=
  ∃ c, c < k ∧ columnLands clip x0 row c qx

theorem rowLands_succ (clip : Bool) (x0 : Nat) (row : Byte) (k : Nat) (qx : Fin 64) :
    rowLands clip x0 row (k + 1) qx ↔ rowLands clip x0 row k qx ∨ columnLands clip x0 row k qx := by
  constructor
  · rintro ⟨c, hc, h⟩
    by_cases hck : c = k
    · exact .inr (hck ▸ h)
    · exact .inl ⟨c, by omega, h⟩
  · rintro (⟨c, hc, h⟩ | h)
    · exact ⟨c, by omega, h⟩
    · exact ⟨k, by omega, h⟩

/-- One column toggles the pixel it lands on, and collides where that was set. -/
theorem drawColumn_spec (clip : Bool) (x0 : Nat) (py : Fin 32) (row : Byte) (d : Frame × Bool) (c : Nat) :
    (∀ qx qy, columnLands clip x0 row c qx → qy = py →
      (drawColumn clip x0 py row d c).1.pixel qx qy = !d.1.pixel qx qy) ∧
    (∀ qx qy, ¬ (columnLands clip x0 row c qx ∧ qy = py) →
      (drawColumn clip x0 py row d c).1.pixel qx qy = d.1.pixel qx qy) ∧
    ((drawColumn clip x0 py row d c).2 = true ↔
      d.2 = true ∨ ∃ qx, columnLands clip x0 row c qx ∧ d.1.pixel qx py = true) := by
  unfold drawColumn
  by_cases hb : row.getLsbD (7 - c) = false
  · have hn : ∀ qx, ¬ columnLands clip x0 row c qx := fun qx h => by simp [h.1] at hb
    rw [if_pos hb]
    exact ⟨fun qx _ h => absurd h (hn qx), fun _ _ _ => rfl, by simp [hn]⟩
  · rw [if_neg hb]
    by_cases hc : (clip && decide (Config.fbWidth ≤ x0 + c)) = true
    · have hn : ∀ qx, ¬ columnLands clip x0 row c qx := fun qx h => by
        simp at hc
        have := h.2.1 hc.1
        omega
      rw [if_pos hc]
      exact ⟨fun qx _ h => absurd h (hn qx), fun _ _ _ => rfl, by simp [hn]⟩
    · rw [if_neg hc]
      have hl : ∀ qx, columnLands clip x0 row c qx ↔ qx = Fin.ofNat 64 (x0 + c) := fun qx => by
        have hv : (Fin.ofNat 64 (x0 + c)).val = (x0 + c) % 64 := rfl
        rw [Fin.ext_iff, hv]
        simp at hb hc
        constructor
        · intro h
          exact h.2.2.symm
        · intro h
          exact ⟨hb, fun hclip => by have := hc hclip; omega, h.symm⟩
      simp only [hl, flipPixel_pixel, flipPixel_hit]
      refine ⟨fun qx qy h1 h2 => by simp [h1, h2], fun qx qy h => by rw [decide_eq_false h, Bool.xor_false], ?_⟩
      simp

/-- Two columns of a row never land on one pixel. -/
theorem columnLands_inj {clip : Bool} {x0 : Nat} {row : Byte} {c c' : Nat} {qx : Fin 64} (hc : c < 8) (hc' : c' < 8)
    (h : columnLands clip x0 row c qx) (h' : columnLands clip x0 row c' qx) : c = c' := by
  have := h.2.2
  have := h'.2.2
  omega

/-- The first `k` columns of a row toggle the pixels they land on, and collide where one of those was set. -/
theorem drawColumns_spec (clip : Bool) (x0 : Nat) (py : Fin 32) (row : Byte) (d : Frame × Bool) (k : Nat) (hk : k ≤ 8) :
    (∀ qx qy, rowLands clip x0 row k qx → qy = py →
      ((List.range k).foldl (drawColumn clip x0 py row) d).1.pixel qx qy = !d.1.pixel qx qy) ∧
    (∀ qx qy, ¬ (rowLands clip x0 row k qx ∧ qy = py) →
      ((List.range k).foldl (drawColumn clip x0 py row) d).1.pixel qx qy = d.1.pixel qx qy) ∧
    (((List.range k).foldl (drawColumn clip x0 py row) d).2 = true ↔
      d.2 = true ∨ ∃ qx, rowLands clip x0 row k qx ∧ d.1.pixel qx py = true) := by
  induction k with
  | zero => simp [rowLands]
  | succ k ih =>
    obtain ⟨i1, i2, i3⟩ := ih (by omega)
    rw [List.range_succ, List.foldl_append, List.foldl_cons, List.foldl_nil]
    obtain ⟨c1, c2, c3⟩ := drawColumn_spec clip x0 py row ((List.range k).foldl (drawColumn clip x0 py row) d) k
    have hex : ∀ qx, columnLands clip x0 row k qx → ¬ rowLands clip x0 row k qx := fun qx h ⟨c, hc, h'⟩ => by
      have := columnLands_inj (by omega) (by omega) h h'
      omega
    refine ⟨fun qx qy h hy => ?_, fun qx qy h => ?_, ?_⟩
    · rcases (rowLands_succ ..).1 h with h | h
      · rw [c2 qx qy fun hc => hex qx hc.1 h, i1 qx qy h hy]
      · rw [c1 qx qy h hy, i2 qx qy fun hc => hex qx h hc.1]
    · rw [rowLands_succ] at h
      rw [c2 qx qy fun hc => h ⟨.inr hc.1, hc.2⟩, i2 qx qy fun hc => h ⟨.inl hc.1, hc.2⟩]
    · rw [c3, i3]
      constructor
      · rintro ((h | ⟨qx, h, hp⟩) | ⟨qx, h, hp⟩)
        · exact .inl h
        · exact .inr ⟨qx, (rowLands_succ ..).2 (.inl h), hp⟩
        · rw [i2 qx py fun hc => hex qx h hc.1] at hp
          exact .inr ⟨qx, (rowLands_succ ..).2 (.inr h), hp⟩
      · rintro (h | ⟨qx, h, hp⟩)
        · exact .inl (.inl h)
        · rcases (rowLands_succ ..).1 h with h | h
          · exact .inl (.inr ⟨qx, h, hp⟩)
          · exact .inr ⟨qx, h, by rwa [i2 qx py fun hc => hex qx h hc.1]⟩

/-! ### Several rows -/

/-- Row `j` of the remaining rows, the `r`-th of the sprite onwards, lands on a pixel: it is not clipped, and one of its
columns lands there. -/
def spriteLands (clip : Bool) (x0 y0 r : Nat) (rows : List Byte) (qx : Fin 64) (qy : Fin 32) : Prop :=
  ∃ j row, rows[j]? = some row ∧ (clip = true → y0 + (r + j) < 32) ∧ (y0 + (r + j)) % 32 = qy.val ∧
    rowLands clip x0 row 8 qx

/-- Drawing rows toggles the pixels they land on, and collides where one of those was set.  Fewer than 33 rows never
land twice on one pixel. -/
theorem drawRows_spec (clip : Bool) (x0 y0 r : Nat) (rows : List Byte) (d : Frame × Bool) (hn : rows.length ≤ 32) :
    (∀ qx qy, spriteLands clip x0 y0 r rows qx qy →
      (drawRows clip x0 y0 r rows d).1.pixel qx qy = !d.1.pixel qx qy) ∧
    (∀ qx qy, ¬ spriteLands clip x0 y0 r rows qx qy →
      (drawRows clip x0 y0 r rows d).1.pixel qx qy = d.1.pixel qx qy) ∧
    ((drawRows clip x0 y0 r rows d).2 = true ↔
      d.2 = true ∨ ∃ qx qy, spriteLands clip x0 y0 r rows qx qy ∧ d.1.pixel qx qy = true) := by
  induction rows generalizing r d with
  | nil => simp [spriteLands, drawRows]
  | cons row rows ih =>
    simp only [List.length_cons] at hn
    rw [drawRows]
    by_cases hclip : (clip && decide (Config.fbHeight ≤ y0 + r)) = true
    · have hno : ∀ qx qy, ¬ spriteLands clip x0 y0 r (row :: rows) qx qy := by
        rintro qx qy ⟨j, row', -, h, -⟩
        simp at hclip
        have := h hclip.1
        omega
      rw [if_pos hclip]
      exact ⟨fun qx qy h => absurd h (hno qx qy), fun _ _ _ => rfl, by simp [hno]⟩
    · rw [if_neg hclip]
      have hlow : clip = true → y0 + r < 32 := fun h => by simp [h] at hclip; omega
      obtain ⟨i1, i2, i3⟩ := ih (r + 1) (drawRow clip x0 (Fin.ofNat 32 (y0 + r)) row d) (by omega)
      obtain ⟨c1, c2, c3⟩ := drawColumns_spec clip x0 (Fin.ofNat 32 (y0 + r)) row d 8 (by omega)
      change ∀ qx qy, _ → _ → (drawRow clip x0 (Fin.ofNat 32 (y0 + r)) row d).1.pixel qx qy = _ at c1
      change ∀ qx qy, _ → (drawRow clip x0 (Fin.ofNat 32 (y0 + r)) row d).1.pixel qx qy = _ at c2
      change (drawRow clip x0 (Fin.ofNat 32 (y0 + r)) row d).2 = true ↔ _ at c3
      have hv : (Fin.ofNat 32 (y0 + r)).val = (y0 + r) % 32 := rfl
      have hsplit : ∀ qx qy, spriteLands clip x0 y0 r (row :: rows) qx qy ↔
          spriteLands clip x0 y0 (r + 1) rows qx qy ∨ (rowLands clip x0 row 8 qx ∧ qy = Fin.ofNat 32 (y0 + r)) := by
        intro qx qy
        rw [Fin.ext_iff, hv]
        constructor
        · rintro ⟨j, row', h1, h2, h3, h4⟩
          cases j with
          | zero =>
            cases h1
            exact .inr ⟨h4, h3.symm⟩
          | succ j =>
            exact .inl ⟨j, row', by simpa using h1, fun h => by have := h2 h; omega,
              by rw [← h3]; congr 1; omega, h4⟩
        · rintro (⟨j, row', h1, h2, h3, h4⟩ | ⟨h4, h3⟩)
          · exact ⟨j + 1, row', by simpa using h1, fun h => by have := h2 h; omega,
              by rw [← h3]; congr 1; omega, h4⟩
          · exact ⟨0, row, rfl, fun h => by have := hlow h; omega, h3.symm, h4⟩
      have hex : ∀ qx qy, spriteLands clip x0 y0 (r + 1) rows qx qy → qy ≠ Fin.ofNat 32 (y0 + r) := by
        rintro qx qy ⟨j, row', h1, -, h3, -⟩ rfl
        have hj := (List.getElem?_eq_some_iff.1 h1).1
        rw [hv] at h3
        omega
      refine ⟨fun qx qy h => ?_, fun qx qy h => ?_, ?_⟩
      · rcases (hsplit qx qy).1 h with h | h
        · rw [i1 qx qy h, c2 qx qy fun hc => hex qx qy h hc.2]
        · rw [i2 qx qy fun hc => hex qx qy hc h.2, c1 qx qy h.1 h.2]
      · rw [hsplit] at h
        rw [i2 qx qy fun hc => h (.inl hc), c2 qx qy fun hc => h (.inr hc)]
      · rw [i3, c3]
        constructor
        · rintro ((h | ⟨qx, h, hp⟩) | ⟨qx, qy, h, hp⟩)
          · exact .inl h
          · exact .inr ⟨qx, _, (hsplit ..).2 (.inr ⟨h, rfl⟩), hp⟩
          · rw [c2 qx qy fun hc => hex qx qy h hc.2] at hp
            exact .inr ⟨qx, qy, (hsplit ..).2 (.inl h), hp⟩
        · rintro (h | ⟨qx, qy, h, hp⟩)
          · exact .inl (.inl h)
          · rcases (hsplit qx qy).1 h with h' | ⟨h', rfl⟩
            · exact .inr ⟨qx, qy, h', by rwa [c2 qx qy fun hc => hex qx qy h' hc.2]⟩
            · exact .inl (.inr ⟨qx, h', hp⟩)

/-! ### The whole draw -/

/-- The rows of the sprite of `n` bytes at `I`. -/
def State.spriteRows (s : State) (n : Nat) : List Byte :=
  (List.range n).map fun k => s.byteAt (s.transferAddress k)

@[simp] theorem State.spriteRows_length (s : State) (n : Nat) : (s.spriteRows n).length = n := by
  simp [State.spriteRows]

theorem State.spriteRows_getElem? (s : State) (n j : Nat) (row : Byte) :
    (s.spriteRows n)[j]? = some row ↔ j < n ∧ row = s.byteAt (s.transferAddress j) := by
  by_cases h : j < n
  · simp [State.spriteRows, h, eq_comm]
  · simp [State.spriteRows, h]

/-- What drawing the sprite of `n` rows gives: the framebuffer, and whether a pixel was set before. -/
def State.drawn (s : State) (x y : Reg) (n : Nat) : Frame × Bool :=
  drawRows s.params.quirks.clip ((s.reg x).toNat % 64) ((s.reg y).toNat % 32) 0 (s.spriteRows n) (s.fb, false)

/-- A draw all of whose bytes exist. -/
theorem State.drawSprite_ok (s : State) (x y : Reg) (n : BitVec 4)
    (h : ∀ k, k < n.toNat → s.transferAddress k ≤ 0xFFF) :
    s.drawSprite x y n = .ok { s.setFlag (s.drawn x y n.toNat).2 with
      fb := (s.drawn x y n.toNat).1
      vblank := if s.params.quirks.displayWait then false else s.vblank
      shouldDraw := true } := by
  rw [State.drawSprite, State.loadBytes_ok s _ _ fun k hk => by simpa [State.transferAddress] using h k hk]
  simp only [State.drawn, State.spriteRows, State.transferAddress, Nat.add_zero]

/-- A draw raises at the first byte that does not exist. -/
theorem State.drawSprite_error (s : State) (x y : Reg) (n : BitVec 4) (k : Nat) (hk : k < n.toNat)
    (hbad : 0xFFF < s.transferAddress k) (hok : ∀ j, j < k → s.transferAddress j ≤ 0xFFF) :
    s.drawSprite x y n = .error (.memoryFault, .address (s.transferAddress k)) := by
  rw [State.drawSprite, State.loadBytes_error s _ _ k hk (by simpa [State.transferAddress] using hbad)
    fun j hj => by simpa [State.transferAddress] using hok j hj]
  rfl

end Sys2Proof.Machine
end

