-- ==== Sys2Proof/Laws/Exec.lean ====
section
/-! SUPPORT. What is common to every instruction: it answers a next state, and the parts of the state no instruction
touches. -/

namespace Sys2Proof.Machine

/-- Every meaning answers a next state: an instruction that raises a fatal error answers the state that records it. -/
theorem exec_next (i : Instr) (s : State) : ∃ t, exec i s = .next t := by
  cases i <;> exact ⟨_, rfl⟩

/-- What every instruction leaves alone, what it keeps, and what it can do to `fault`. -/
structure ExecFrame (s t : State) : Prop where
  lastTick : t.lastTick = s.lastTick
  keyState : t.keyState = s.keyState
  params : t.params = s.params
  loaded : t.loaded = s.loaded
  inputs : t.inputs = s.inputs
  ticks : t.ticks = s.ticks
  inv : s.Inv → t.Inv
  fault : t.fault = s.fault ∨ ∃ r, t.fault = some r ∧ r.address = s.instrAddress

namespace ExecFrame

theorem of_eqs {s t : State} (h1 : t.lastTick = s.lastTick) (h2 : t.keyState = s.keyState) (h3 : t.params = s.params)
    (h4 : t.loaded = s.loaded) (h5 : t.inputs = s.inputs) (h6 : t.ticks = s.ticks) (h7 : t.mem = s.mem)
    (h8 : t.fault = s.fault) : ExecFrame s t :=
  ⟨h1, h2, h3, h4, h5, h6, fun h => h.congr h7 h3, .inl h8⟩

theorem raise (s : State) (r : Raise) : ExecFrame s (s.raise r) :=
  ⟨rfl, rfl, rfl, rfl, rfl, rfl, id, .inr ⟨_, rfl, rfl⟩⟩

theorem settle (s : State) (e : Except Raise State) (h : ∀ t, e = .ok t → ExecFrame s t) : ExecFrame s (s.settle e) := by
  rcases s.settle_cases e with ⟨t, he, ht⟩ | ⟨r, -, ht⟩ <;> rw [ht]
  · exact h t he
  · exact raise s r

theorem of_storeBytes {s t : State} {a : Nat} {bs : List Byte} (h : s.storeBytes a bs = .ok t) : ExecFrame s t := by
  obtain ⟨h1, h2⟩ := State.storeBytes_frame _ _ h
  rw [h1] at h2 ⊢
  exact ⟨rfl, rfl, rfl, rfl, rfl, rfl, h2, .inl rfl⟩

theorem setI {s t : State} (h : ExecFrame s t) (v : Word) : ExecFrame s (t.setI v) :=
  ⟨h.lastTick, h.keyState, h.params, h.loaded, h.inputs, h.ticks, h.inv, h.fault⟩

end ExecFrame

/-- Every instruction has the frame. -/
theorem exec_frame {i : Instr} {s t : State} (h : exec i s = .next t) : ExecFrame s t := by
  cases i <;> (injection h with h; subst h)
  case ret =>
    refine .settle s _ fun t h => ?_
    rcases s.pop_cases with ⟨_, e⟩ | ⟨_, e⟩ <;> rw [e] at h <;> cases h
    exact .of_eqs rfl rfl rfl rfl rfl rfl rfl rfl
  case call =>
    refine .settle s _ fun t h => ?_
    rcases s.push_cases s.pc with ⟨_, e⟩ | ⟨_, e⟩ <;> rw [e] at h <;> cases h
    exact .of_eqs rfl rfl rfl rfl rfl rfl rfl rfl
  case ldBVx => exact .settle s _ fun t h => .of_storeBytes h
  case ldMemVx =>
    refine .settle s _ fun t h => ?_
    split at h <;> cases h
    exact (ExecFrame.of_storeBytes ‹_›).setI _
  case ldVxMem =>
    refine .settle s _ fun t h => ?_
    split at h <;> cases h
    rw [State.setRegs_frame]
    exact .of_eqs rfl rfl rfl rfl rfl rfl rfl rfl
  case drw =>
    split
    · exact .of_eqs rfl rfl rfl rfl rfl rfl rfl rfl
    · refine .settle s _ fun t h => ?_
      rw [State.drawSprite] at h
      split at h <;> cases h
      exact .of_eqs rfl rfl rfl rfl rfl rfl rfl rfl
  case skp =>
    refine .settle s _ fun t h => ?_
    split at h <;> cases h
    exact .of_eqs rfl rfl rfl rfl rfl rfl rfl rfl
  case sknp =>
    refine .settle s _ fun t h => ?_
    split at h <;> cases h
    exact .of_eqs rfl rfl rfl rfl rfl rfl rfl rfl
  case ldVxK => split <;> exact .of_eqs rfl rfl rfl rfl rfl rfl rfl rfl
  all_goals exact .of_eqs rfl rfl rfl rfl rfl rfl rfl rfl

end Sys2Proof.Machine
end

