-- ==== Sys2Proof/Laws/PerInstr.lean ====
section
/-! SUPPORT. Statements about every instruction, constructor by constructor.  `TableRow`: the word the encoder gives an
instruction has the fixed bits of the instruction's own row of R75. -/

namespace Sys2Proof.Laws.TableRow

/-- The instruction's word has the bits of a row of R75 with the instruction's name. -/
def Statement (i : Instr) : Prop :=
  ∃ r ∈ opcodeRows, r.mnemonic = i.mnemonic ∧ r.hasWord (encode i) = true

theorem of_packA (o : BitVec 4) (nnn : BitVec 12) (m : String) (v : Word) (h : v.toNat = o.toNat * 4096) :
    OpcodeRow.hasWord ⟨m, 0xF000, v⟩ (packA o nnn) = true := by
  rw [hasWord_F000, packA_toNat, decide_eq_true_eq]
  have := nnn.isLt
  omega

theorem of_packXK (o : BitVec 4) (x : Reg) (kk : Byte) (m : String) (v : Word) (h : v.toNat = o.toNat * 4096) :
    OpcodeRow.hasWord ⟨m, 0xF000, v⟩ (packXK o x kk) = true := by
  rw [hasWord_F000, packXK_toNat, decide_eq_true_eq]
  have := kk.isLt
  omega

theorem of_packX (o : BitVec 4) (x : Reg) (kk : Byte) (m : String) (v : Word)
    (h : v.toNat = o.toNat * 4096 + kk.toNat) : OpcodeRow.hasWord ⟨m, 0xF0FF, v⟩ (packXK o x kk) = true := by
  rw [hasWord_F0FF, packXK_toNat, decide_eq_true_eq]
  have := kk.isLt
  omega

theorem of_packXYN (o : BitVec 4) (x y : Reg) (n : BitVec 4) (m : String) (v : Word) (h : v.toNat = o.toNat * 4096) :
    OpcodeRow.hasWord ⟨m, 0xF000, v⟩ (packXYN o x y n) = true := by
  rw [hasWord_F000, packXYN_toNat, decide_eq_true_eq]
  have := n.isLt
  omega

theorem of_packXY (o : BitVec 4) (x y : Reg) (n : BitVec 4) (m : String) (v : Word)
    (h : v.toNat = o.toNat * 4096 + n.toNat) : OpcodeRow.hasWord ⟨m, 0xF00F, v⟩ (packXYN o x y n) = true := by
  rw [hasWord_F00F, packXYN_toNat, decide_eq_true_eq]
  have := n.isLt
  omega

theorem cls : Statement .cls :=
  ⟨⟨"CLS", 0xFFFF, 0x00E0⟩, by decide, rfl, rfl⟩

theorem ret : Statement .ret :=
  ⟨⟨"RET", 0xFFFF, 0x00EE⟩, by decide, rfl, rfl⟩

theorem jp (nnn : BitVec 12) : Statement (.jp nnn) :=
  ⟨⟨"JP", 0xF000, 0x1000⟩, by decide, rfl, of_packA _ _ _ _ rfl⟩

theorem call (nnn : BitVec 12) : Statement (.call nnn) :=
  ⟨⟨"CALL", 0xF000, 0x2000⟩, by decide, rfl, of_packA _ _ _ _ rfl⟩

theorem seImm (x : Reg) (kk : Byte) : Statement (.seImm x kk) :=
  ⟨⟨"SE_IMM", 0xF000, 0x3000⟩, by decide, rfl, of_packXK _ _ _ _ _ rfl⟩

theorem sneImm (x : Reg) (kk : Byte) : Statement (.sneImm x kk) :=
  ⟨⟨"SNE_IMM", 0xF000, 0x4000⟩, by decide, rfl, of_packXK _ _ _ _ _ rfl⟩

theorem seReg (x y : Reg) : Statement (.seReg x y) :=
  ⟨⟨"SE_REG", 0xF00F, 0x5000⟩, by decide, rfl, of_packXY _ _ _ _ _ _ rfl⟩

theorem ldImm (x : Reg) (kk : Byte) : Statement (.ldImm x kk) :=
  ⟨⟨"LD_IMM", 0xF000, 0x6000⟩, by decide, rfl, of_packXK _ _ _ _ _ rfl⟩

theorem addImm (x : Reg) (kk : Byte) : Statement (.addImm x kk) :=
  ⟨⟨"ADD_IMM", 0xF000, 0x7000⟩, by decide, rfl, of_packXK _ _ _ _ _ rfl⟩

theorem ldReg (x y : Reg) : Statement (.ldReg x y) :=
  ⟨⟨"LD_REG", 0xF00F, 0x8000⟩, by decide, rfl, of_packXY _ _ _ _ _ _ rfl⟩

theorem orReg (x y : Reg) : Statement (.orReg x y) :=
  ⟨⟨"OR", 0xF00F, 0x8001⟩, by decide, rfl, of_packXY _ _ _ _ _ _ rfl⟩

theorem andReg (x y : Reg) : Statement (.andReg x y) :=
  ⟨⟨"AND", 0xF00F, 0x8002⟩, by decide, rfl, of_packXY _ _ _ _ _ _ rfl⟩

theorem xorReg (x y : Reg) : Statement (.xorReg x y) :=
  ⟨⟨"XOR", 0xF00F, 0x8003⟩, by decide, rfl, of_packXY _ _ _ _ _ _ rfl⟩

theorem addReg (x y : Reg) : Statement (.addReg x y) :=
  ⟨⟨"ADD_REG", 0xF00F, 0x8004⟩, by decide, rfl, of_packXY _ _ _ _ _ _ rfl⟩

theorem sub (x y : Reg) : Statement (.sub x y) :=
  ⟨⟨"SUB", 0xF00F, 0x8005⟩, by decide, rfl, of_packXY _ _ _ _ _ _ rfl⟩

theorem shr (x y : Reg) : Statement (.shr x y) :=
  ⟨⟨"SHR", 0xF00F, 0x8006⟩, by decide, rfl, of_packXY _ _ _ _ _ _ rfl⟩

theorem subn (x y : Reg) : Statement (.subn x y) :=
  ⟨⟨"SUBN", 0xF00F, 0x8007⟩, by decide, rfl, of_packXY _ _ _ _ _ _ rfl⟩

theorem shl (x y : Reg) : Statement (.shl x y) :=
  ⟨⟨"SHL", 0xF00F, 0x800E⟩, by decide, rfl, of_packXY _ _ _ _ _ _ rfl⟩

theorem sneReg (x y : Reg) : Statement (.sneReg x y) :=
  ⟨⟨"SNE_REG", 0xF00F, 0x9000⟩, by decide, rfl, of_packXY _ _ _ _ _ _ rfl⟩

theorem ldI (nnn : BitVec 12) : Statement (.ldI nnn) :=
  ⟨⟨"LD_I", 0xF000, 0xA000⟩, by decide, rfl, of_packA _ _ _ _ rfl⟩

theorem jpV0 (nnn : BitVec 12) : Statement (.jpV0 nnn) :=
  ⟨⟨"JP_V0", 0xF000, 0xB000⟩, by decide, rfl, of_packA _ _ _ _ rfl⟩

theorem rnd (x : Reg) (kk : Byte) : Statement (.rnd x kk) :=
  ⟨⟨"RND", 0xF000, 0xC000⟩, by decide, rfl, of_packXK _ _ _ _ _ rfl⟩

theorem drw (x y : Reg) (n : BitVec 4) : Statement (.drw x y n) :=
  ⟨⟨"DRW", 0xF000, 0xD000⟩, by decide, rfl, of_packXYN _ _ _ _ _ _ rfl⟩

theorem skp (x : Reg) : Statement (.skp x) :=
  ⟨⟨"SKP", 0xF0FF, 0xE09E⟩, by decide, rfl, of_packX _ _ _ _ _ rfl⟩

theorem sknp (x : Reg) : Statement (.sknp x) :=
  ⟨⟨"SKNP", 0xF0FF, 0xE0A1⟩, by decide, rfl, of_packX _ _ _ _ _ rfl⟩

theorem ldVxDt (x : Reg) : Statement (.ldVxDt x) :=
  ⟨⟨"LD_VX_DT", 0xF0FF, 0xF007⟩, by decide, rfl, of_packX _ _ _ _ _ rfl⟩

theorem ldVxK (x : Reg) : Statement (.ldVxK x) :=
  ⟨⟨"LD_VX_K", 0xF0FF, 0xF00A⟩, by decide, rfl, of_packX _ _ _ _ _ rfl⟩

theorem ldDtVx (x : Reg) : Statement (.ldDtVx x) :=
  ⟨⟨"LD_DT_VX", 0xF0FF, 0xF015⟩, by decide, rfl, of_packX _ _ _ _ _ rfl⟩

theorem ldStVx (x : Reg) : Statement (.ldStVx x) :=
  ⟨⟨"LD_ST_VX", 0xF0FF, 0xF018⟩, by decide, rfl, of_packX _ _ _ _ _ rfl⟩

theorem addIVx (x : Reg) : Statement (.addIVx x) :=
  ⟨⟨"ADD_I_VX", 0xF0FF, 0xF01E⟩, by decide, rfl, of_packX _ _ _ _ _ rfl⟩

theorem ldFVx (x : Reg) : Statement (.ldFVx x) :=
  ⟨⟨"LD_F_VX", 0xF0FF, 0xF029⟩, by decide, rfl, of_packX _ _ _ _ _ rfl⟩

theorem ldBVx (x : Reg) : Statement (.ldBVx x) :=
  ⟨⟨"LD_B_VX", 0xF0FF, 0xF033⟩, by decide, rfl, of_packX _ _ _ _ _ rfl⟩

theorem ldMemVx (x : Reg) : Statement (.ldMemVx x) :=
  ⟨⟨"LD_MEM_VX", 0xF0FF, 0xF055⟩, by decide, rfl, of_packX _ _ _ _ _ rfl⟩

theorem ldVxMem (x : Reg) : Statement (.ldVxMem x) :=
  ⟨⟨"LD_VX_MEM", 0xF0FF, 0xF065⟩, by decide, rfl, of_packX _ _ _ _ _ rfl⟩

end Sys2Proof.Laws.TableRow
end

