-- ==== Sys2Proof/Laws/Step.lean ====
section
/-! SUPPORT. What a step can do, said once: it raises a fatal error and leaves the rest of the state, or it runs one
instruction and the end of the tick. -/

namespace Sys2Proof.Machine

variable {s t : State}

/-- A running state's step is a tick. -/
theorem step_of_runs (h : s.Runs) : step s = tick s := by
  rw [step, h.2]
  exact if_pos h.1

theorem State.fetch_ok (he : s.pc.toNat % 2 = 0) (hh : s.pc.toNat ≤ 0xFFE) :
    s.fetch = .ok (s.byteAt s.pc.toNat ++ s.byteAt (s.pc.toNat + 1), { s with pc := s.pc + 2 }) :=
  if_pos (by simp [fetchable]; omega)

theorem State.fetch_error (h : s.pc.toNat % 2 = 1 ∨ 0xFFE < s.pc.toNat) :
    s.fetch = .error ⟨.fetchFault, s.pc, .address s.pc.toNat⟩ :=
  if_neg (by simp [fetchable]; omega)

/-- Fetching either way. -/
theorem State.fetch_cases (s : State) :
    (s.pc.toNat % 2 = 0 ∧ s.pc.toNat ≤ 0xFFE ∧
      s.fetch = .ok (s.byteAt s.pc.toNat ++ s.byteAt (s.pc.toNat + 1), { s with pc := s.pc + 2 })) ∨
    ((s.pc.toNat % 2 = 1 ∨ 0xFFE < s.pc.toNat) ∧ s.fetch = .error ⟨.fetchFault, s.pc, .address s.pc.toNat⟩) := by
  by_cases h : s.pc.toNat % 2 = 0 ∧ s.pc.toNat ≤ 0xFFE
  · exact .inl ⟨h.1, h.2, State.fetch_ok h.1 h.2⟩
  · have : s.pc.toNat % 2 = 1 ∨ 0xFFE < s.pc.toNat := by omega
    exact .inr ⟨this, State.fetch_error this⟩

theorem State.endTick_none (h : t.fault = none) : s.endTick t = (t.timerUpdate t.input.now).consumeInput := by
  rw [State.endTick, h]

theorem State.endTick_some {r : FatalRecord} (h : t.fault = some r) : s.endTick t = { s with fault := some r } := by
  rw [State.endTick, h]
  rfl

/-- The state after fetch in the tick that starts in `s`. -/
abbrev State.afterFetch (s : State) : State := { s.beginTick with pc := s.pc + 2 }

/-- The inversion of `step`: what a step that answers `t` did. -/
theorem step_cases (h : step s = .next t) : s.Runs ∧
    ((∃ r, t = { s with fault := some r } ∧ r.address = s.pc) ∨
      ∃ i u, s.pc.toNat % 2 = 0 ∧ s.pc.toNat ≤ 0xFFE ∧
        decode (s.byteAt s.pc.toNat ++ s.byteAt (s.pc.toNat + 1)) = .ok i ∧ exec i s.afterFetch = .next u ∧
        u.fault = none ∧ t = (u.timerUpdate u.input.now).consumeInput) := by
  have hr : s.Runs := by
    rw [step] at h
    split at h
    · cases h
    · split at h
      · exact ⟨‹_›, ‹_›⟩
      · cases h
  refine ⟨hr, ?_⟩
  rw [step_of_runs hr, tick] at h
  rcases s.beginTick.fetch_cases with ⟨he, hh, hf⟩ | ⟨-, hf⟩ <;> rw [hf] at h
  · simp only at h
    split at h
    · cases h
      exact .inl ⟨_, rfl, rfl⟩
    · rename_i i hi
      split at h
      · rename_i u hu
        cases h
        cases huf : u.fault with
        | none => exact .inr ⟨i, u, he, hh, hi, hu, huf, State.endTick_none huf⟩
        | some r =>
          refine .inl ⟨r, State.endTick_some huf, ?_⟩
          rcases (exec_frame hu).fault with h1 | ⟨r', h1, h2⟩
          · rw [huf] at h1
            exact absurd (h1.trans hr.2) (by simp)
          · rw [huf] at h1
            cases h1
            rw [h2, State.instrAddress]
            simp
      · cases h
      · cases h
  · cases h
    exact .inl ⟨_, rfl, rfl⟩

end Sys2Proof.Machine
end

