-- ==== Sys2Proof/Laws/Tick.lean ====
section
/-! SUPPORT. The key latch key by key, the timers, and the reserved region. -/

namespace Sys2Proof.Machine

/-- A number below 16 sets its own key; any other number sets none. -/
theorem latchKey_getElem (keys : Vector Bool 16) (k : Nat) (v : Bool) (q : Fin 16) :
    (latchKey keys k v)[q.val] = if k = q.val then v else keys[q.val] := by
  rw [latchKey]
  split
  · exact Vector.getElem_set ..
  · rw [if_neg]
    intro h
    have := q.isLt
    simp at *
    omega

/-- The release wins over the press of the same key. -/
theorem latchKeys_getElem (keys : Vector Bool 16) (i : TickInput) (q : Fin 16) :
    (latchKeys keys i)[q.val] =
      if i.released = q.val then false else if i.pressed = q.val then true else keys[q.val] := by
  rw [latchKeys, latchKey_getElem, latchKey_getElem]

theorem periodElapsed_iff (now last : Millis) :
    periodElapsed now last = true ↔ 1000 ≤ (60 : Rat) * (now.val - last.val) := by
  simp [periodElapsed]

/-- Counting down never goes below 0. -/
theorem countDown_toNat (v : Byte) : (countDown v).toNat = v.toNat - 1 := by
  revert v
  decide

/-- In a state with the memory invariant, the reserved region reads as at reset. -/
theorem State.Inv.byteAt_reserved {s : State} (h : s.Inv) {a : Nat} (ha : a < 0x200) :
    s.byteAt a = resetByte s.params a := by
  apply Memory.read_of_lt
  intro c hc
  have := (h.2 c hc).1
  omega

end Sys2Proof.Machine
end

