-- ==== Sys2Proof/Tests/Slice0.lean ====
section
/-! SUPPORT. Tests of the model against the vectors of 95_test_vectors.md (a comment names each one), the smoke test of
WellFormed, and a witness for the hypotheses of every statement. -/

open Sys2Proof Sys2Proof.Machine Sys2Proof.Claims

namespace Sys2Proof.Tests

/-! ### Helpers: a small state, and one part of a result -/

/-- The Quirk Profile with all toggles off (95_test_vectors.md, "Start"). -/
def noQuirks : Quirks := ⟨false, false, false, false, false, false⟩

/-- A configuration with the font at 0x050. -/
def config (q : Quirks) : Parameters := ⟨q, 0x050, Config.defaultFont, false⟩

/-- No key edge, the clock at 0, random byte 0. -/
def quiet : TickInput := ⟨16, 16, .frac 0 1, 0⟩

/-- A machine with these quirks and a loaded program whose memory is given, at `pc`. -/
def machine (q : Quirks) (pc : Word) (mem : Memory) : State :=
  { State.initialize (config q) (.frac 0 1) with loaded := true, pc := pc, mem := mem, inputs := [quiet] }

/-- The machine while it executes an instruction at 0x200. -/
def start : State := machine noQuirks 0x202 []

/-- The machine with these quirks while it executes an instruction at 0x200. -/
def quirky (q : Quirks) : State := machine q 0x202 []

/-- The machine about to fetch `w` at `a`. -/
def fetching (a : Nat) (w : Word) : State :=
  machine noQuirks (BitVec.ofNat 16 a) [(a, w.extractLsb' 8 8), (a + 1, w.extractLsb' 0 8)]

/-- One part of the next state, where there is one. -/
def after {α : Type} (r : Result) (f : State → α) : Option α :=
  match r with
  | .next t => some (f t)
  | _ => none

/-- The set pixels of row `py`. -/
def setColumns (t : State) (py : Fin 32) : List Nat :=
  (List.range 64).filter fun px => t.fb.pixel (Fin.ofNat 64 px) py

/-! ### WellFormed: what each check refuses -/

theorem test_wf_refuses_zero_words : wordWf 0x0000 = false ∧ wordWf 0x0123 = false ∧ wordWf 0x00E1 = false := by decide
theorem test_wf_refuses_register_skips : wordWf 0x5121 = false ∧ wordWf 0x9124 = false := by decide
theorem test_wf_refuses_arithmetic : wordWf 0x8128 = false ∧ wordWf 0x812D = false ∧ wordWf 0x812F = false := by decide
theorem test_wf_refuses_keys : wordWf 0xE19F = false ∧ wordWf 0xE100 = false := by decide
theorem test_wf_refuses_misc : wordWf 0xF1FF = false ∧ wordWf 0xF100 = false := by decide
theorem test_wf_accepts : wordWf 0x812E = true ∧ wordWf 0xD012 = true := by decide
theorem test_wf_refuses_a_long_image : imageWf (List.replicate 3585 0) = false := by
  rw [imageWf, List.length_replicate]; rfl
theorem test_wf_accepts_a_full_image : imageWf (List.replicate 3584 0) = true := by
  rw [imageWf, List.length_replicate]; rfl
theorem test_wf_refuses_a_key : keyWf 16 = false ∧ keyWf 15 = true := by decide

/-! ### Decode: one written-out word for every row of R75, and illegal words of every kind -/

theorem test_decode_cls : decode 0x00E0 = .ok .cls := rfl
theorem test_decode_ret : decode 0x00EE = .ok .ret := rfl
theorem test_decode_jp : decode 0x1ABC = .ok (.jp 0xABC) := rfl
theorem test_decode_call : decode 0x2FED = .ok (.call 0xFED) := rfl
theorem test_decode_seImm : decode 0x3A5C = .ok (.seImm 10 0x5C) := rfl
theorem test_decode_sneImm : decode 0x4B07 = .ok (.sneImm 11 0x07) := rfl
theorem test_decode_seReg : decode 0x5120 = .ok (.seReg 1 2) := rfl
theorem test_decode_ldImm : decode 0x6A05 = .ok (.ldImm 10 0x05) := rfl
theorem test_decode_addImm : decode 0x7A03 = .ok (.addImm 10 0x03) := rfl
theorem test_decode_ldReg : decode 0x8CD0 = .ok (.ldReg 12 13) := rfl
theorem test_decode_or : decode 0x8121 = .ok (.orReg 1 2) := rfl
theorem test_decode_and : decode 0x8122 = .ok (.andReg 1 2) := rfl
theorem test_decode_xor : decode 0x8123 = .ok (.xorReg 1 2) := rfl
theorem test_decode_addReg : decode 0x8F14 = .ok (.addReg 15 1) := rfl
theorem test_decode_sub : decode 0x8015 = .ok (.sub 0 1) := rfl
theorem test_decode_shr : decode 0x8106 = .ok (.shr 1 0) := rfl
theorem test_decode_subn : decode 0x8017 = .ok (.subn 0 1) := rfl
theorem test_decode_shl : decode 0x812E = .ok (.shl 1 2) := rfl
theorem test_decode_sneReg : decode 0x9120 = .ok (.sneReg 1 2) := rfl
theorem test_decode_ldI : decode 0xA20E = .ok (.ldI 0x20E) := rfl
theorem test_decode_jpV0 : decode 0xB123 = .ok (.jpV0 0x123) := rfl
theorem test_decode_rnd : decode 0xC3FF = .ok (.rnd 3 0xFF) := rfl
theorem test_decode_drw : decode 0xD12F = .ok (.drw 1 2 15) := rfl
theorem test_decode_skp : decode 0xE19E = .ok (.skp 1) := rfl
theorem test_decode_sknp : decode 0xE1A1 = .ok (.sknp 1) := rfl
theorem test_decode_ldVxDt : decode 0xF107 = .ok (.ldVxDt 1) := rfl
theorem test_decode_ldVxK : decode 0xF20A = .ok (.ldVxK 2) := rfl
theorem test_decode_ldDtVx : decode 0xF015 = .ok (.ldDtVx 0) := rfl
theorem test_decode_ldStVx : decode 0xF318 = .ok (.ldStVx 3) := rfl
theorem test_decode_addIVx : decode 0xF21E = .ok (.addIVx 2) := rfl
theorem test_decode_ldFVx : decode 0xF429 = .ok (.ldFVx 4) := rfl
theorem test_decode_ldBVx : decode 0xF033 = .ok (.ldBVx 0) := rfl
theorem test_decode_ldMemVx : decode 0xFF55 = .ok (.ldMemVx 15) := rfl
theorem test_decode_ldVxMem : decode 0xF165 = .ok (.ldVxMem 1) := rfl
theorem test_decode_illegal_zero : decode 0x0123 = .error .illegalZero ∧ decode 0x00E1 = .error .illegalZero := ⟨rfl, rfl⟩
theorem test_decode_illegal_skip :
    decode 0x5121 = .error .illegalRegisterSkip ∧ decode 0x9124 = .error .illegalRegisterSkip := ⟨rfl, rfl⟩
theorem test_decode_illegal_arithmetic :
    decode 0x8128 = .error .illegalArithmetic ∧ decode 0x812F = .error .illegalArithmetic := ⟨rfl, rfl⟩
theorem test_decode_illegal_key : decode 0xE19F = .error .illegalKey := rfl
theorem test_decode_illegal_misc : decode 0xF1FF = .error .illegalMisc ∧ decode 0xF100 = .error .illegalMisc := ⟨rfl, rfl⟩
theorem test_decode_truncated : decodeBytes [0x12] = .error .truncated := rfl
theorem test_decode_bytes : decodeBytes [0x12, 0x34, 0x56] = .ok (.jp 0x234, [0x56]) := rfl
theorem test_encodeBytes : encodeBytes (.addReg 15 1) = [0x8F, 0x14] := by decide
theorem test_decodeTableWord : decodeTableWord 16 0x8F14 = some (.addReg 15 1) ∧ decodeTableWord 16 0x0123 = none := by decide

/-! ### Control transfer -/

-- V-C3
theorem test_ret : after (execRet { start with sp := 1, stack := start.stack.set 0 0x206 }) (fun t => (t.pc, t.sp)) =
    some (0x206, 0) := by decide
-- V-C4
theorem test_ret_empty : after (execRet { start with pc := 0x20C }) (·.fault) =
    some (some ⟨.stackUnderflow, 0x20A, .address 0x20A⟩) := by decide
-- V-C1
theorem test_jp : after (execJp 0x204 start) (·.pc) = some 0x204 := by decide
-- V-C2
theorem test_call : after (execCall 0x210 { start with pc := 0x206 }) (fun t => (t.stack[0], t.sp, t.pc)) =
    some (0x206, 1, 0x210) := by decide
-- V-C5
theorem test_call_full : after (execCall 0x300 { start with sp := 32 }) (fun t => (t.fault, t.sp)) =
    some (some ⟨.stackOverflow, 0x200, .address 0x200⟩, 32) := by decide
-- V-C7
theorem test_seImm : after (execSeImm 0 5 (start.setReg 0 5)) (·.pc) = some 0x204 := by decide
-- V-C8
theorem test_seImm_not : after (execSeImm 0 5 (start.setReg 0 4)) (·.pc) = some 0x202 := by decide
-- V-C9
theorem test_sneImm : after (execSneImm 0 5 (start.setReg 0 4)) (·.pc) = some 0x204 := by decide
-- V-C10
theorem test_sneImm_not : after (execSneImm 0 5 (start.setReg 0 5)) (·.pc) = some 0x202 := by decide
-- V-C11
theorem test_seReg : after (execSeReg 1 2 ((start.setReg 1 7).setReg 2 7)) (·.pc) = some 0x204 := by decide
-- V-C12
theorem test_seReg_not : after (execSeReg 1 2 ((start.setReg 1 7).setReg 2 8)) (·.pc) = some 0x202 := by decide
-- V-C14
theorem test_sneReg : after (execSneReg 1 2 ((start.setReg 1 7).setReg 2 8)) (·.pc) = some 0x204 := by decide
-- V-C15
theorem test_sneReg_same : after (execSneReg 1 1 (start.setReg 1 7)) (·.pc) = some 0x202 := by decide
-- V-C18
theorem test_jpV0_quirk :
    after (execJpV0 0x300 (((quirky { noQuirks with jumpVx := true }).setReg 0 4).setReg 3 8)) (·.pc) = some 0x308 := by
  decide
-- V-C19
theorem test_jpV0_past_the_end : after (execJpV0 0xFFF (start.setReg 0 0xFF)) (fun t => (t.pc, t.fault)) =
    some (0x10FE, none) := by decide

/-! ### ALU -/

/-- `V[x]` and VF after an instruction. -/
def resultAndFlag (x : Reg) (r : Result) : Option (Byte × Byte) := after r fun t => (t.reg x, t.reg 15)

-- V-A1
theorem test_ldImm : resultAndFlag 10 (execLdImm 10 5 start) = some (5, 0) := by decide
-- V-A2
theorem test_addImm_wraps : resultAndFlag 10 (execAddImm 10 1 ((start.setReg 10 0xFF).setReg 15 7)) = some (0, 7) := by
  decide
-- V-A3
theorem test_addImm_flag_register : resultAndFlag 15 (execAddImm 15 1 (start.setReg 15 7)) = some (8, 8) := by decide
-- V-A30
theorem test_ldReg : resultAndFlag 1 (execLdReg 1 2 (start.setReg 2 0x33)) = some (0x33, 0) := by decide
-- V-A23
theorem test_or_resets : resultAndFlag 1 (execOr 1 2
    ((((quirky { noQuirks with vfReset := true }).setReg 1 0x0F).setReg 2 0xF0).setReg 15 7)) = some (0xFF, 0) := by decide
-- V-A28
theorem test_or_flag_register : resultAndFlag 15 (execOr 15 2 ((start.setReg 15 0x0F).setReg 2 0xF0)) =
    some (0xFF, 0xFF) := by decide
-- V-A25
theorem test_and : resultAndFlag 1 (execAnd 1 2 ((start.setReg 1 0x3C).setReg 2 0x0F)) = some (0x0C, 0) := by decide
-- V-A26
theorem test_xor : resultAndFlag 1 (execXor 1 2 ((start.setReg 1 0x3C).setReg 2 0x0F)) = some (0x33, 0) := by decide
-- V-A4
theorem test_addReg_carries : resultAndFlag 0 (execAddReg 0 1 ((start.setReg 0 0xFF).setReg 1 2)) = some (1, 1) := by
  decide
-- V-A7
theorem test_addReg_flag_register : resultAndFlag 15 (execAddReg 15 1 ((start.setReg 15 0xF0).setReg 1 0x20)) =
    some (1, 1) := by decide
-- V-A9
theorem test_sub_borrows : resultAndFlag 0 (execSub 0 1 ((start.setReg 0 1).setReg 1 2)) = some (0xFF, 0) := by decide
-- V-A10
theorem test_sub_equal : resultAndFlag 0 (execSub 0 1 ((start.setReg 0 5).setReg 1 5)) = some (0, 1) := by decide
-- V-A16
theorem test_shr : resultAndFlag 1 (execShr 1 0 ((start.setReg 0 0xFF).setReg 1 2)) = some (0x7F, 1) := by decide
-- V-A17
theorem test_shr_in_place : resultAndFlag 1 (execShr 1 0
    (((quirky { noQuirks with shiftInPlace := true }).setReg 0 0xFF).setReg 1 2)) = some (1, 0) := by decide
-- V-A13
theorem test_subn_borrows : resultAndFlag 0 (execSubn 0 1 ((start.setReg 0 5).setReg 1 3)) = some (0xFE, 0) := by decide
-- V-A14
theorem test_subn : resultAndFlag 0 (execSubn 0 1 ((start.setReg 0 3).setReg 1 5)) = some (2, 1) := by decide
-- V-A21
theorem test_shl : resultAndFlag 1 (execShl 1 0 ((start.setReg 0 0x7F).setReg 1 0)) = some (0xFE, 0) := by decide
-- V-A22
theorem test_shl_in_place : resultAndFlag 1 (execShl 1 0
    (((quirky { noQuirks with shiftInPlace := true }).setReg 0 0).setReg 1 0x80)) = some (0, 1) := by decide
-- V-A31
theorem test_rnd : resultAndFlag 3 (execRnd 3 0x0F { start with inputs := [{ quiet with rnd := 0xA7 }] }) =
    some (0x07, 0) := by decide

/-! ### Index register and memory -/

-- V-M1
theorem test_ldI : after (execLdI 0x300 start) (·.I) = some 0x300 := by decide
-- V-M3
theorem test_addIVx : after (execAddIVx 0 { start.setReg 0 1 with I := 0xFFF }) (·.I) = some 0x1000 := by decide
-- V-M4
theorem test_addIVx_wraps : after (execAddIVx 0 { start.setReg 0 1 with I := 0xFFFF }) (·.I) = some 0 := by decide
-- V-M5: FONT_BASE + 55
theorem test_ldFVx : after (execLdFVx 0 (start.setReg 0 0x0B)) (·.I) = some 0x087 := by decide
-- V-M6: FONT_BASE + 50
theorem test_ldFVx_low_nibble : after (execLdFVx 0 (start.setReg 0 0x1A)) (·.I) = some 0x082 := by decide
-- V-M7
theorem test_ldBVx : after (execLdBVx 0 { start.setReg 0 254 with I := 0x300 })
    (fun t => (t.byteAt 0x300, t.byteAt 0x301, t.byteAt 0x302)) = some (2, 5, 4) := by decide
-- V-M9
theorem test_ldBVx_fault : after (execLdBVx 0 { start.setReg 0 7 with I := 0xFFE, pc := 0x212 })
    (fun t => (t.fault, t.mem)) = some (some ⟨.memoryFault, 0x210, .address 0x1000⟩, []) := by decide
-- V-M11
theorem test_ldMemVx : after (execLdMemVx 2
    { ((quirky { noQuirks with indexAdvance := true }).setRegs 0 [0x11, 0x22, 0x33]) with I := 0x300 })
    (fun t => (t.mem, t.I)) = some ([(0x300, 0x11), (0x301, 0x22), (0x302, 0x33)], 0x303) := by decide
-- V-M13
theorem test_ldMemVx_fault : after (execLdMemVx 3 { start with I := 0x1FE, pc := 0x212 }) (fun t => (t.fault, t.I)) =
    some (some ⟨.protectedWrite, 0x210, .address 0x1FE⟩, 0x1FE) := by decide
-- V-M17
theorem test_ldVxMem : after (execLdVxMem 4 { start with I := 0x050 }) (fun t => (t.regsUpTo 4, t.I)) =
    some ([0xF0, 0x90, 0x90, 0x90, 0xF0], 0x050) := by decide
-- V-M16
theorem test_ldVxMem_fault : after (execLdVxMem 15 { start.setReg 3 9 with I := 0xFF1, pc := 0x212 })
    (fun t => (t.fault, t.reg 3)) = some (some ⟨.memoryFault, 0x210, .address 0x1000⟩, 9) := by decide

/-! ### Display -/

/-- The sprite C0, 80 at 0x300, `I` at it, and the corner (63, 31) in `V[0]`, `V[1]`. -/
def corner (q : Quirks) : State :=
  { ((machine q 0x202 [(0x300, 0xC0), (0x301, 0x80)]).setReg 0 63).setReg 1 31 with I := 0x300 }

-- V-D18
theorem test_cls : after (execCls { start with fb := start.fb.setPixel 5 6 true }) (fun t => (t.fb.pixel 5 6, t.shouldDraw)) =
    some (false, false) := by decide
-- V-D3
theorem test_drw_clips : after (execDrw 0 1 2 (corner { noQuirks with clip := true }))
    (fun t => (setColumns t 31, setColumns t 0, t.reg 15)) = some ([63], [], 0) := by decide
-- V-D4
theorem test_drw_wraps : after (execDrw 0 1 2 (corner noQuirks))
    (fun t => (setColumns t 31, setColumns t 0, t.reg 15)) = some ([0, 63], [63], 0) := by decide

/-! ### Timers, keys and whole ticks -/

-- V-T7: the period has elapsed in the tick that runs F107
theorem test_ldVxDt : after (step { fetching 0x300 0xF107 with DT := 4, inputs := [{ quiet with now := .frac 50 3 }] })
    (fun t => (t.reg 1, t.DT)) = some (4, 3) := by decide +kernel
-- V-T8
theorem test_ldDtVx : after (step { (fetching 0x300 0xF015).setReg 0 5 with inputs := [{ quiet with now := .frac 50 3 }] })
    (·.DT) = some 4 := by decide +kernel
-- V-T9
theorem test_ldDtVx_no_period : after (step ((fetching 0x300 0xF015).setReg 0 5)) (·.DT) = some 5 := by decide +kernel
-- V-T10
theorem test_ldStVx : after (step { (fetching 0x300 0xF318).setReg 3 1 with inputs := [{ quiet with now := .frac 50 3 }] })
    (fun t => (t.ST, t.shouldBeep)) = some (0, false) := by decide +kernel
-- V-T5
theorem test_timer_waits : after (step { fetching 0x300 0x1300 with DT := 10, inputs := [{ quiet with now := .frac 1666 100 }] })
    (fun t => (t.DT, t.vblank)) = some (10, false) := by decide +kernel
-- V-T2
theorem test_timer_loses_excess : after (step { fetching 0x300 0x1300 with DT := 10, inputs := [{ quiet with now := .frac 1000 1 }] })
    (fun t => (t.DT, t.lastTick)) = some (9, .frac 1000 1) := by decide +kernel
-- V-K1
theorem test_skp : after (step { (fetching 0x300 0xE29E).setReg 2 7 with inputs := [{ quiet with pressed := 7 }] })
    (fun t => (t.keyState[7], t.pc)) = some (true, 0x304) := by decide
-- V-K4
theorem test_skp_release_wins : after (step { (fetching 0x300 0xE29E).setReg 2 7 with
    inputs := [{ quiet with pressed := 7, released := 7 }] }) (fun t => (t.keyState[7], t.pc)) = some (false, 0x302) := by
  decide
-- V-K5
theorem test_sknp : after (step ((fetching 0x300 0xE2A1).setReg 2 7)) (·.pc) = some 0x304 := by decide
-- V-K6
theorem test_sknp_bad_key : after (step ((fetching 0x300 0xE2A1).setReg 2 16)) (·.fault) =
    some (some ⟨.keyIndexFault, 0x300, .key 0x300 16⟩) := by decide
-- V-K8
theorem test_ldVxK : after (step { fetching 0x20A 0xF20A with inputs := [{ quiet with released := 7 }] })
    (fun t => (t.reg 2, t.pc)) = some (7, 0x20C) := by decide
-- V-K9
theorem test_ldVxK_waits : after (step { fetching 0x20A 0xF20A with inputs := [{ quiet with pressed := 5 }] })
    (fun t => (t.pc, t.keyState[5])) = some (0x20A, true) := by decide
-- V-K12
theorem test_fault_rolls_the_keys_back : after (step { fetching 0x300 0xF033 with I := 0x1FF, inputs := [{ quiet with pressed := 2 }] })
    (fun t => (t.fault, t.keyState[2])) = some (some ⟨.protectedWrite, 0x300, .address 0x1FF⟩, false) := by decide
-- V-F1
theorem test_fetch_odd : after (step (machine noQuirks 0x201 [])) (·.fault) =
    some (some ⟨.fetchFault, 0x201, .address 0x201⟩) := by decide
-- V-F3
theorem test_fetch_past_the_end : after (step (machine noQuirks 0x1000 [])) (·.fault) =
    some (some ⟨.fetchFault, 0x1000, .address 0x1000⟩) := by decide
-- V-F2
theorem test_fetch_last_word : after (step (fetching 0xFFE 0x1200)) (·.pc) = some 0x200 := by decide
-- V-X1
theorem test_illegal_word : after (step { fetching 0x300 0xFFFF with DT := 5, inputs := [{ quiet with now := .frac 50 3 }] })
    (fun t => (t.fault, t.DT, t.pc)) = some (some ⟨.illegalInstruction, 0x300, .word 0x300 0xFFFF⟩, 5, 0x300) := by decide
-- V-L4
theorem test_no_step_before_a_load : after (step { fetching 0x300 0x1300 with loaded := false }) (·.pc) = none := by decide
-- V-X2
theorem test_no_step_after_a_fault :
    after (step { fetching 0x300 0x1300 with fault := some ⟨.fetchFault, 0x301, .address 0x301⟩ }) (·.pc) = none := by decide
-- V-L1, V-L5
theorem test_load_too_large : (State.initialize (config noQuirks) (.frac 0 1)).loadProgram (List.replicate 3585 1) = .imageTooLarge := by
  rw [State.loadProgram, List.length_replicate]; rfl
theorem test_load_twice : start.loadProgram [0x12, 0x00] = .refused := by decide
-- The host's own placing of an instruction, at reset
theorem test_withFetchWord_from_reset : after (step (State.reset.withFetchWord 16 0x6A05)) (fun t => (t.reg 10, t.pc)) =
    some (5, 0x202) := by rfl
theorem test_withFetchWord_font_is_kept : (State.reset.withFetchWord 16 0x6A05).mem = [(0x200, 0x6A), (0x201, 0x05)] := by rfl

/-! ### Witnesses: for every statement with hypotheses, states and operands that meet them, clause by clause -/

/-- `after` says what a next state holds; this says there is one. -/
theorem exists_next {r : Result} (h : after r (fun _ => ()) = some ()) : ∃ t, r = .next t := by
  cases r with
  | next t => exact ⟨t, rfl⟩
  | fault e => cases h
  | refused e => cases h

theorem inv_of_empty (s : State) (h : s.mem = []) : s.Inv := by
  rw [State.Inv, h]
  exact ⟨⟨.nil, fun _ h => nomatch h⟩, fun _ h => nomatch h⟩

/-- A machine that has run to the last tick of V-M11, with bytes in memory. -/
def stored : State := machine noQuirks 0x200 [(0x200, 0x12), (0x300, 0x11), (0xFFF, 0x33)]

theorem stored_inv : stored.Inv := by
  unfold State.Inv
  decide

theorem witness_EncodingADecodedWordGivesItBack : decode 0x8F14 = .ok (.addReg 15 1) := rfl
theorem witness_WordDecodesIffItHasTheBitsOfOneRow : decode 0xFF65 = .ok (.ldVxMem 15) := rfl

theorem witness_InitializeLeavesTheResetState : ∃ s, s = State.initialize (config noQuirks) (.frac 7 2) ∧
    (0x04F < (config noQuirks).fontBase.val ∨ (config noQuirks).fontBase.val + 80 ≤ 0x04F) ∧
    (0x0A0 < (config noQuirks).fontBase.val ∨ (config noQuirks).fontBase.val + 80 ≤ 0x0A0) := ⟨_, rfl, by decide, by decide⟩

/-- The longest image, and an address on each side of it. -/
theorem witness_LoadProgramCopiesTheImage :
    (State.initialize (config noQuirks) (.frac 0 1)).Inv ∧
    (State.initialize (config noQuirks) (.frac 0 1)).loaded = false ∧ (List.replicate 3584 (0xFF : Byte)).length ≤ 3584 ∧
    3583 < (List.replicate 3584 (0xFF : Byte)).length ∧ 0x1FF < 0x200 ∧
    0x200 + (List.replicate 3584 (0xFF : Byte)).length ≤ 0x1000 := by
  rw [List.length_replicate]
  exact ⟨inv_of_empty _ rfl, rfl, by omega, by omega, by omega, by omega⟩

theorem witness_LoadProgramReportsWhatItDoesNotLoad :
    start.loaded = true ∧ (State.initialize (config noQuirks) (.frac 0 1)).loaded = false ∧
    3584 < (List.replicate 3585 (0 : Byte)).length := by
  rw [List.length_replicate]
  exact ⟨rfl, rfl, by omega⟩

/-- The last address an instruction can stand at; a period that has just elapsed, and one that has not. -/
theorem witness_StepRunsTheDecodedInstruction :
    (fetching 0xFFE 0x1200).Runs ∧ fetches (fetching 0xFFE 0x1200) (.jp 0x200) ∧
    ({ start with fault := some ⟨.memoryFault, 0x200, .address 0x1000⟩ } : State).fault =
      some ⟨.memoryFault, 0x200, .address 0x1000⟩ ∧
    start.fault = none ∧ periodElapsedAt { start with inputs := [{ quiet with now := .frac 50 3 }] } ∧
    ¬ periodElapsedAt { start with inputs := [{ quiet with now := .frac 49 3 }] } :=
  ⟨⟨rfl, rfl⟩, by unfold fetches; decide, rfl, rfl, by decide +kernel, by decide +kernel⟩

theorem witness_EveryRunningStateHasAStep : start.Runs ∧ (machine noQuirks 0xFFFF []).Runs := ⟨⟨rfl, rfl⟩, rfl, rfl⟩

theorem witness_NoStepAfterAFatalErrorOrBeforeALoad :
    ({ start with fault := some ⟨.fetchFault, 0x201, .address 0x201⟩ } : State).fault =
      some ⟨.fetchFault, 0x201, .address 0x201⟩ ∧
    ({ start with loaded := false } : State).fault = none ∧ ({ start with loaded := false } : State).loaded = false :=
  ⟨rfl, rfl, rfl⟩

theorem witness_FetchAtABadAddressIsFatal :
    (machine noQuirks 0x201 []).Runs ∧ (machine noQuirks 0x201 []).pc.toNat % 2 = 1 ∧
    (machine noQuirks 0x1000 []).Runs ∧ 0xFFE < (machine noQuirks 0x1000 []).pc.toNat :=
  ⟨⟨rfl, rfl⟩, by decide, ⟨rfl, rfl⟩, by decide⟩

theorem witness_IllegalWordIsFatal :
    (fetching 0xFFE 0x8128).Runs ∧ (fetching 0xFFE 0x8128).pc.toNat % 2 = 0 ∧ (fetching 0xFFE 0x8128).pc.toNat ≤ 0xFFE ∧
    (0x8128 : Word) = ((fetching 0xFFE 0x8128).byteAt (fetching 0xFFE 0x8128).pc.toNat ++
      (fetching 0xFFE 0x8128).byteAt ((fetching 0xFFE 0x8128).pc.toNat + 1) : BitVec (8 + 8)) ∧ wordWf 0x8128 = false :=
  ⟨⟨rfl, rfl⟩, by decide⟩

/-- An instruction that raises: a return with an empty stack, at 0x200. -/
theorem witness_FatalTickLeavesThePreTickState : ∃ t, step (fetching 0x200 0x00EE) = .next t ∧
    t.fault = some ⟨.stackUnderflow, 0x200, .address 0x200⟩ := ⟨_, rfl, by decide⟩

theorem witness_EveryStepKeepsTheMemoryInvariant : stored.Inv ∧ ∃ t, step stored = .next t :=
  ⟨stored_inv, exists_next (by decide)⟩
theorem witness_NoStepChangesTheReservedRegion : stored.Inv ∧ (∃ t, step stored = .next t) ∧ 0x1FF < 0x200 :=
  ⟨stored_inv, exists_next (by decide), by decide⟩
theorem witness_NoStepChangesTheConfiguration : ∃ t, step (fetching 0x200 0x1200) = .next t ∧ t.fault = none :=
  ⟨_, rfl, by decide⟩

/-- A timer write in a tick whose period has just elapsed, one in a tick whose period has not, and another instruction. -/
theorem witness_CompletedTickUpdatesTheTimers :
    ((fetching 0x200 0xF015).Runs ∧ fetches (fetching 0x200 0xF015) (.ldDtVx 0) ∧
      ¬ periodElapsedAt (fetching 0x200 0xF015) ∧ ∃ t, step (fetching 0x200 0xF015) = .next t ∧ t.fault = none) ∧
    (periodElapsedAt { fetching 0x200 0xF018 with inputs := [{ quiet with now := .frac 50 3 }] } ∧
      fetches (fetching 0x200 0xF018) (.ldStVx 0) ∧
      ∃ t, step { fetching 0x200 0xF018 with inputs := [{ quiet with now := .frac 50 3 }] } = .next t ∧ t.fault = none) ∧
    (fetches (fetching 0x200 0x1200) (.jp 0x200) ∧ ∃ t, step (fetching 0x200 0x1200) = .next t ∧ t.fault = none) :=
  ⟨⟨⟨rfl, rfl⟩, by unfold fetches; decide, by decide +kernel, _, rfl, by decide⟩,
   ⟨by decide +kernel, by unfold fetches; decide, _, rfl, by decide⟩,
   by unfold fetches; decide, _, rfl, by decide⟩

/-- The highest key released, the highest key pressed, and the first sentinel. -/
theorem witness_CompletedTickLatchesTheKeys :
    (∃ t, step { fetching 0x200 0x1200 with inputs := [{ quiet with released := 15, pressed := 15 }] } = .next t ∧
      t.fault = none) ∧
    (∃ t, step { fetching 0x200 0x1200 with inputs := [{ quiet with released := 16, pressed := 15 }] } = .next t ∧
      t.fault = none) ∧
    (∃ t, step { fetching 0x200 0x1200 with inputs := [{ quiet with released := 16, pressed := 16 }] } = .next t ∧
      t.fault = none) := ⟨⟨_, rfl, by decide⟩, ⟨_, rfl, by decide⟩, ⟨_, rfl, by decide⟩⟩

theorem witness_CompletedTickSetsShouldDraw :
    (fetches { fetching 0x200 0xD010 with I := 0x300 } (.drw 0 1 0) ∧
      drawProceeds { fetching 0x200 0xD010 with I := 0x300 } ∧
      ∃ t, step { fetching 0x200 0xD010 with I := 0x300 } = .next t ∧ t.fault = none) ∧
    (fetches (fetching 0x200 0x00E0) .cls ∧ ∃ t, step (fetching 0x200 0x00E0) = .next t ∧ t.fault = none) :=
  ⟨⟨by unfold fetches; decide, nofun, _, rfl, by decide⟩, by unfold fetches; decide, _, rfl, by decide⟩

theorem witness_OnlyDisplayInstructionsChangeTheFramebuffer :
    (∃ t, exec (.ldMemVx 15) { start with I := 0x300 } = .next t) ∧ Instr.ldMemVx 15 ≠ .cls ∧
    ∀ x y n, Instr.ldMemVx 15 ≠ .drw x y n := ⟨⟨_, rfl⟩, nofun, nofun⟩
theorem witness_OnlyStoringInstructionsChangeMemory :
    (∃ t, exec (.ldVxMem 15) { start with I := 0x300 } = .next t) ∧ ¬ storesBytes (.ldVxMem 15) := ⟨⟨_, rfl⟩, id⟩
theorem witness_OnlyCallAndReturnTouchTheStack :
    (∃ t, exec (.jp 0x300) { start with sp := 32 } = .next t) ∧ Instr.jp 0x300 ≠ .ret ∧
    ∀ nnn, Instr.jp 0x300 ≠ .call nnn := ⟨⟨_, rfl⟩, nofun, nofun⟩
/-- A block transfer without `Q.index_advance`. -/
theorem witness_OnlyListedInstructionsWriteTheIndex :
    (∃ t, exec (.ldMemVx 15) { start with I := 0x300 } = .next t) ∧
    ¬ writesIndex { start with I := 0x300 } (.ldMemVx 15) := ⟨⟨_, rfl⟩, nofun⟩
/-- FX65 with `x = 14`, the last that leaves VF alone, and `or` without `Q.vf_reset`. -/
theorem witness_OnlyListedInstructionsWriteTheFlag :
    ((∃ t, exec (.ldVxMem 14) { start with I := 0x300 } = .next t) ∧
      ¬ writesFlag { start with I := 0x300 } (.ldVxMem 14) ∧ ¬ destinationIsFlag (.ldVxMem 14)) ∧
    ((∃ t, exec (.orReg 14 15) start = .next t) ∧ ¬ writesFlag start (.orReg 14 15) ∧
      ¬ destinationIsFlag (.orReg 14 15)) :=
  ⟨⟨⟨_, rfl⟩, id, by simp [destinationIsFlag]⟩, ⟨_, rfl⟩, nofun, by simp [destinationIsFlag]⟩
theorem witness_OnlyListedInstructionsMoveThePc :
    (∃ t, exec (.ldVxMem 0) start = .next t) ∧ ¬ mayMovePc (.ldVxMem 0) := ⟨⟨_, rfl⟩, id⟩
/-- A draw without display wait, and an instruction that is none of the exceptions. -/
theorem witness_InstructionsLeaveTheHostSideAlone :
    (∃ t, exec (.drw 0 1 1) start = .next t) ∧ start.params.quirks.displayWait = false ∧
    (∀ x, Instr.drw 0 1 1 ≠ .ldDtVx x) ∧ (∀ x, Instr.drw 0 1 1 ≠ .ldStVx x) := ⟨⟨_, rfl⟩, rfl, nofun, nofun⟩
theorem witness_TheRandomByteReachesOnlyRandom :
    (∀ x kk, Instr.ldVxK 3 ≠ .rnd x kk) ∧
    ∃ t, exec (.ldVxK 3) { start with inputs := { quiet with released := 15 } :: [] } = .next t := ⟨nofun, _, rfl⟩

theorem witness_CanonicalMemoriesWithTheSameBytesAreEqual :
    Memory.wf (config noQuirks) [(0x050, 0), (0x200, 0x12), (0xFFF, 1)] ∧
    ∀ a, Memory.read (config noQuirks) [(0x050, 0), (0x200, 0x12), (0xFFF, 1)] a =
      Memory.read (config noQuirks) (Memory.write (config noQuirks) [(0x050, 0), (0xFFF, 1)] 0x200 0x12) a :=
  ⟨by decide, fun _ => rfl⟩
/-- An address for every clause, each next to the boundary. -/
theorem witness_CheckedStoreWritesOneByteOrRaises : stored.Inv ∧ 0xFFF < 0x1000 ∧ 0x1FF < 0x200 ∧
    (0x200 ≤ 0x200 ∧ 0x200 ≤ 0xFFF) ∧ (0x200 ≤ 0xFFF ∧ 0xFFF ≤ 0xFFF) := ⟨stored_inv, by decide⟩

theorem witness_ReturnPopsOrUnderflows : 0 < ({ start with sp := 1 } : State).sp.val ∧ start.sp.val = 0 := by decide
theorem witness_CallPushesOrOverflows :
    ({ start with sp := 31 } : State).sp.val < 32 ∧ ({ start with sp := 32 } : State).sp.val = 32 := by decide
theorem witness_ReturnUndoesACall :
    ({ start with sp := 31 } : State).sp.val < 32 ∧ ∃ t, exec (.call 0xFFF) { start with sp := 31 } = .next t :=
  ⟨by decide, _, rfl⟩
/-- Both values of `Q.jump_vx`, and the highest register it can select. -/
theorem witness_OffsetJumpAddsTheSelectedRegister :
    start.params.quirks.jumpVx = false ∧ (quirky { noQuirks with jumpVx := true }).params.quirks.jumpVx = true ∧
    (15 : Reg).val = (0xF00 : BitVec 12).toNat / 256 := by decide

theorem witness_BitwiseFormsWriteTheResult :
    (Instr.orReg 15 15 = .orReg 15 15 ∧ (0x0F : Byte) = (start.setReg 15 0x0F).reg 15 ||| (start.setReg 15 0x0F).reg 15) ∧
    (Instr.andReg 1 15 = .andReg 1 15 ∧ (0x0C : Byte) =
      ((start.setReg 1 0x3C).setReg 15 0x0F).reg 1 &&& ((start.setReg 1 0x3C).setReg 15 0x0F).reg 15) ∧
    (Instr.xorReg 15 2 = .xorReg 15 2 ∧ (0x33 : Byte) =
      ((start.setReg 15 0x3C).setReg 2 0x0F).reg 15 ^^^ ((start.setReg 15 0x3C).setReg 2 0x0F).reg 2) ∧
    (quirky { noQuirks with vfReset := true }).params.quirks.vfReset = true ∧ start.params.quirks.vfReset = false := by
  decide
theorem witness_AddWritesTheSumAndTheCarry : (14 : Reg) ≠ 15 ∧ 255 < (0xFF : Byte).toNat + (1 : Byte).toNat := by decide
theorem witness_SubtractionsWriteTheDifferenceAndNoBorrow :
    (Instr.sub 14 15 = .sub 14 15 ∧ start.reg 14 = start.reg 14 ∧ start.reg 15 = start.reg 15) ∧ (14 : Reg) ≠ 15 := by
  decide
theorem witness_ShiftsWriteTheResultAndTheEvictedBit : ∃ v : Byte,
    v = if start.params.quirks.shiftInPlace then start.reg 14 else start.reg 15 := ⟨_, rfl⟩

/-- The lowest and the highest index at which the three digits fit. -/
theorem witness_BcdStoresThreeDigits :
    (0x200 ≤ ({ stored with I := 0x200 } : State).transferAddress 0 ∧
      ({ stored with I := 0x200 } : State).transferAddress 2 ≤ 0xFFF) ∧
    (0x200 ≤ ({ stored with I := 0xFFD } : State).transferAddress 0 ∧
      ({ stored with I := 0xFFD } : State).transferAddress 2 ≤ 0xFFF) ∧ stored.Inv := ⟨by decide, by decide, stored_inv⟩
/-- V-M14: sixteen registers up to the last byte of memory; and the lowest index. -/
theorem witness_StoreRegistersCopiesThemToMemory :
    (0x200 ≤ ({ stored with I := 0xFF0 } : State).transferAddress 0 ∧
      ({ stored with I := 0xFF0 } : State).transferAddress (15 : Reg).val ≤ 0xFFF) ∧
    (0x200 ≤ ({ stored with I := 0x200 } : State).transferAddress 0 ∧
      ({ stored with I := 0x200 } : State).transferAddress (0 : Reg).val ≤ 0xFFF) ∧ stored.Inv :=
  ⟨by decide, by decide, stored_inv⟩
theorem witness_LoadRegistersCopiesThemFromMemory :
    ({ stored with I := 0xFF0 } : State).transferAddress (15 : Reg).val ≤ 0xFFF ∧ (15 : Reg) ≤ 15 ∧
    ({ stored with I := 0 } : State).transferAddress (14 : Reg).val ≤ 0xFFF ∧ (14 : Reg) < 15 := by decide
/-- Every clause: the first bad address is the last of the digits, the last of the registers, or the first. -/
theorem witness_TransferRaisesAtTheFirstBadAddress :
    (2 ≤ 2 ∧ storeRaises (({ start with I := 0xFFE } : State).transferAddress 2) .memoryFault ∧
      ∀ j, j < 2 → 0x200 ≤ ({ start with I := 0xFFE } : State).transferAddress j ∧
        ({ start with I := 0xFFE } : State).transferAddress j ≤ 0xFFF) ∧
    (0 ≤ 2 ∧ storeRaises (({ start with I := 0x1FF } : State).transferAddress 0) .protectedWrite ∧
      ∀ j, j < 0 → 0x200 ≤ ({ start with I := 0x1FF } : State).transferAddress j ∧
        ({ start with I := 0x1FF } : State).transferAddress j ≤ 0xFFF) ∧
    (15 ≤ (15 : Reg).val ∧ storeRaises (({ start with I := 0xFF1 } : State).transferAddress 15) .memoryFault ∧
      ∀ j, j < 15 → 0x200 ≤ ({ start with I := 0xFF1 } : State).transferAddress j ∧
        ({ start with I := 0xFF1 } : State).transferAddress j ≤ 0xFFF) ∧
    (15 ≤ (15 : Reg).val ∧ 0xFFF < ({ start with I := 0xFF1 } : State).transferAddress 15 ∧
      ∀ j, j < 15 → ({ start with I := 0xFF1 } : State).transferAddress j ≤ 0xFFF) :=
  ⟨⟨by decide, .inl (by decide), by decide⟩, ⟨by decide, .inr (by decide), nofun⟩,
   ⟨by decide, .inl (by decide), by decide⟩, by decide, by decide, by decide⟩
theorem witness_LoadAfterStoreRestoresTheRegisters :
    stored.Inv ∧ 0x200 ≤ ({ stored with I := 0xFF0 } : State).transferAddress 0 ∧
    ({ stored with I := 0xFF0 } : State).transferAddress (15 : Reg).val ≤ 0xFFF ∧
    ∃ t, exec (.ldMemVx 15) { stored with I := 0xFF0 } = .next t := ⟨stored_inv, by decide, by decide, _, rfl⟩

theorem witness_ClearScreenClearsEveryPixel : start.params.clsSetsDraw = false ∧
    ({ start with params := { config noQuirks with clsSetsDraw := true } } : State).params.clsSetsDraw = true := by decide
theorem corner_misses : ∀ r, r < 2 → ∀ c, c < 8 → ¬ bitLandsOn (corner noQuirks) 0 1 5 5 r c := by
  unfold bitLandsOn
  decide

/-- A bit that lands, clipped and wrapped, and a pixel nothing lands on; a draw that display wait lets through. -/
theorem witness_DrawTogglesTheCoveredPixels :
    (drawProceeds (corner noQuirks) ∧ spriteReadable (corner noQuirks) 2 ∧
      spriteCovers (corner noQuirks) 0 1 2 0 31 ∧ ¬ spriteCovers (corner noQuirks) 0 1 2 5 5) ∧
    (drawProceeds { corner { noQuirks with clip := true, displayWait := true } with vblank := true } ∧
      spriteCovers (corner { noQuirks with clip := true, displayWait := true }) 0 1 2 63 31) :=
  ⟨⟨nofun, by unfold spriteReadable; decide, ⟨0, 1, by unfold bitLandsOn; decide⟩, fun ⟨r, c, hr, hc, h⟩ => corner_misses r hr c hc h⟩,
    fun _ => rfl, ⟨0, 0, by unfold bitLandsOn; decide⟩⟩
theorem witness_DrawWaitsForVblank :
    (quirky { noQuirks with displayWait := true }).params.quirks.displayWait = true ∧
    (quirky { noQuirks with displayWait := true }).vblank = false := by decide
/-- V-D13. -/
theorem witness_DrawRaisesOnAnUnreadableSprite :
    drawProceeds { start with I := 0xFFF } ∧ 1 < (2 : BitVec 4).toNat ∧
    0xFFF < ({ start with I := 0xFFF } : State).transferAddress 1 ∧
    ∀ j, j < 1 → ({ start with I := 0xFFF } : State).transferAddress j ≤ 0xFFF := ⟨nofun, by decide, by decide, by decide⟩
/-- A sprite over a clear corner, and one with no row. -/
theorem witness_DrawingTwiceRestoresTheFramebuffer :
    drawProceeds (corner noQuirks) ∧ spriteReadable (corner noQuirks) 2 ∧
    (∃ t, exec (.drw 0 1 2) (corner noQuirks) = .next t ∧
      (t.reg 0).toNat % 64 = ((corner noQuirks).reg 0).toNat % 64 ∧
      (t.reg 1).toNat % 32 = ((corner noQuirks).reg 1).toNat % 32) ∧
    (spriteCovers (corner noQuirks) 0 1 2 63 31 ∧ (corner noQuirks).fb.pixel 63 31 = false) ∧
    ¬ ∃ px py, spriteCovers (corner noQuirks) 0 1 0 px py ∧ (corner noQuirks).fb.pixel px py = false :=
  ⟨nofun, by unfold spriteReadable; decide, ⟨_, rfl, by decide, by decide⟩,
   ⟨⟨0, 0, by unfold bitLandsOn; decide⟩, by decide⟩, fun ⟨_, _, ⟨_, _, h, _⟩, _⟩ => absurd h (Nat.not_lt_zero _)⟩
theorem witness_DrawAfterClearLeavesOnlyTheSprite :
    drawProceeds (corner noQuirks) ∧ spriteReadable (corner noQuirks) 2 ∧ ∃ t, exec .cls (corner noQuirks) = .next t :=
  ⟨nofun, by unfold spriteReadable; decide, _, rfl⟩

theorem witness_KeySkipsTestTheLatch : ((start.setReg 2 15).reg 2).toNat = (15 : Fin 16).val := by decide
theorem witness_KeySkipsRaiseOnABadIndex :
    (Instr.sknp 2 = .skp 2 ∨ Instr.sknp 2 = .sknp 2) ∧ 15 < ((start.setReg 2 16).reg 2).toNat := by decide
theorem witness_WaitForKeyWaitsForARelease :
    ({ start with inputs := [{ quiet with released := 15 }] } : State).input.released ≤ 15 ∧
    15 < start.input.released := by decide

end Sys2Proof.Tests
end

/-! ## What the state keeps, and what each instruction may change of it (10_state.md) -/

namespace Sys2Proof.Machine

variable {s t : State} {i : Instr} {p : Parameters}

/-! ### Memory at reset, and memory in its canonical form -/

/-- Inside the font an unwritten byte is the font's (R32). -/
theorem resetByte_font (p : Parameters) (j : Fin 80) : resetByte p (p.fontBase.val + j.val) = p.fontData[j.val] := by
  have hbound := p.fontBase_bound
  have hj := j.isLt
  rw [resetByte, if_neg (by simp at *; omega), dif_pos ⟨by omega, by simp⟩]
  simp

/-- Outside the font an unwritten byte is zero (R43). -/
theorem resetByte_outside_font {a : Nat} (h : a < p.fontBase.val ∨ p.fontBase.val + 80 ≤ a) : resetByte p a = 0 := by
  rw [resetByte, dif_neg (by simp; omega), ite_self]

/-- A memory that lists no byte has the invariant. -/
theorem State.Inv.of_mem_nil (h : s.mem = []) : s.Inv := by
  rw [State.Inv, h]
  exact ⟨⟨.nil, nofun⟩, nofun⟩

/-- The byte listed first is read at its address. -/
theorem Memory.read_cons_self (a : Nat) (u : Byte) (m : Memory) : Memory.read p ((a, u) :: m) a = u :=
  if_pos rfl

theorem Memory.wf_tail {c : Host.Cell} {m : Memory} (h : Memory.wf p (c :: m)) : Memory.wf p m :=
  ⟨(List.pairwise_cons.1 h.1).2, fun d hd => h.2 d (List.mem_cons_of_mem c hd)⟩

/-- The first address of a canonical memory is not below every address of another memory with the same bytes: that one
would read there as at reset, and a canonical list has no reset byte. -/
theorem Memory.not_head_lt {c : Host.Cell} {m m' : Memory} (hwf : Memory.wf p (c :: m))
    (hread : ∀ a, Memory.read p (c :: m) a = Memory.read p m' a) : ¬ ∀ d ∈ m', c.1 < d.1 := fun hlt =>
  hwf.2 c (by simp) <| by
    rw [← Memory.read_of_lt hlt, ← hread, Memory.read_cons_self]

/-- In a canonical list, an address at most the first one's is below every later one's. -/
theorem Memory.lt_of_le_head {c : Host.Cell} {m : Memory} {a : Nat} (hwf : Memory.wf p (c :: m)) (ha : a ≤ c.1) :
    ∀ d ∈ m, a < d.1 := fun d hd =>
  lt_of_le_of_lt ha ((List.pairwise_cons.1 hwf.1).1 d hd)

/-- Canonical memories with the same bytes list the same bytes. -/
theorem Memory.ext_read {m m' : Memory} (hm : Memory.wf p m) (hm' : Memory.wf p m')
    (hread : ∀ a, Memory.read p m a = Memory.read p m' a) : m = m' := by
  induction m generalizing m' with
  | nil =>
    cases m' with
    | nil => rfl
    | cons d m' => exact absurd nofun (Memory.not_head_lt hm' fun a => (hread a).symm)
  | cons c m ih =>
    cases m' with
    | nil => exact absurd nofun (Memory.not_head_lt hm hread)
    | cons d m' =>
      obtain ⟨a, u⟩ := c
      obtain ⟨b, v⟩ := d
      have hba : ¬ a < b := fun hlt => Memory.not_head_lt hm hread
        (List.forall_mem_cons.2 ⟨hlt, Memory.lt_of_le_head hm' hlt.le⟩)
      have hab : ¬ b < a := fun hlt => Memory.not_head_lt hm' (fun x => (hread x).symm)
        (List.forall_mem_cons.2 ⟨hlt, Memory.lt_of_le_head hm hlt.le⟩)
      obtain rfl : a = b := by omega
      obtain rfl : u = v := by simpa only [Memory.read_cons_self] using hread a
      rw [ih (Memory.wf_tail hm) (Memory.wf_tail hm') fun x => ?_]
      by_cases hx : x ≤ a
      · rw [Memory.read_of_lt (Memory.lt_of_le_head hm hx), Memory.read_of_lt (Memory.lt_of_le_head hm' hx)]
      · simpa [Memory.read, show x ≠ a by omega] using hread x

/-! ### What every step keeps -/

/-- The memory invariant is kept by every step, fatal or not. -/
theorem step_keeps_inv (hs : s.Inv) (h : step s = .next t) : t.Inv := by
  obtain ⟨-, ⟨r, rfl, -⟩ | ⟨i, u, -, -, -, hexec, -, rfl⟩⟩ := step_cases h
  · exact hs.congr rfl rfl
  · have hu : u.Inv := (exec_frame hexec).inv (hs.congr rfl rfl)
    exact hu.congr rfl rfl

/-- No step changes the configuration or the mark that a program is loaded. -/
theorem step_config (h : step s = .next t) : t.params = s.params ∧ t.loaded = s.loaded := by
  obtain ⟨-, ⟨r, rfl, -⟩ | ⟨i, u, -, -, -, hexec, -, rfl⟩⟩ := step_cases h
  · exact ⟨rfl, rfl⟩
  · exact ⟨(exec_frame hexec).params, (exec_frame hexec).loaded⟩

/-- A step that raises no fatal error uses up one input. -/
theorem step_uses_one_input (h : step s = .next t) (hf : t.fault = none) :
    t.inputs = s.inputs.tail ∧ t.ticks = s.ticks + 1 := by
  obtain ⟨-, ⟨r, rfl, -⟩ | ⟨i, u, -, -, -, hexec, -, rfl⟩⟩ := step_cases h
  · cases hf
  · exact ⟨congrArg List.tail (exec_frame hexec).inputs, congrArg (· + 1) (exec_frame hexec).ticks⟩

/-- A step that raises no fatal error ran the instruction at `pc`, and then the end of the tick. -/
theorem completed_step (hi : Claims.fetches s i) (h : step s = .next t) (hf : t.fault = none) :
    ∃ u, exec i s.afterFetch = .next u ∧ u.fault = none ∧ t = (u.timerUpdate u.input.now).consumeInput := by
  obtain ⟨-, ⟨r, rfl, -⟩ | ⟨j, u, -, -, hj, hexec, hu, ht⟩⟩ := step_cases h
  · cases hf
  · obtain ⟨-, -, hdecode⟩ := hi
    obtain rfl : j = i := Except.ok.inj (hj.symm.trans hdecode)
    exact ⟨u, hexec, hu, ht⟩

/-! ### The parts of the state an instruction may change -/

/-- `t` differs from `s` at most in what the instruction may write, `fault` included where it can raise a fatal error.
`I` and `vblank` are written by a block transfer and a draw only under the toggle that says so (R25, R172). -/
def ChangesOnly (s t : State) : Instr → Prop
  | .cls => t = { s with fb := t.fb, shouldDraw := t.shouldDraw }
  | .ret => t = { s with pc := t.pc, sp := t.sp, fault := t.fault }
  | .call _ => t = { s with pc := t.pc, stack := t.stack, sp := t.sp, fault := t.fault }
  | .jp _ | .jpV0 _ | .seImm _ _ | .sneImm _ _ | .seReg _ _ | .sneReg _ _ => t = { s with pc := t.pc }
  | .skp _ | .sknp _ => t = { s with pc := t.pc, fault := t.fault }
  | .ldImm _ _ | .addImm _ _ | .ldReg _ _ | .orReg _ _ | .andReg _ _ | .xorReg _ _ | .addReg _ _ | .sub _ _
  | .shr _ _ | .subn _ _ | .shl _ _ | .rnd _ _ | .ldVxDt _ => t = { s with V := t.V }
  | .ldVxK _ => t = { s with V := t.V, pc := t.pc }
  | .ldI _ | .addIVx _ | .ldFVx _ => t = { s with I := t.I }
  | .ldDtVx _ => t = { s with DT := t.DT }
  | .ldStVx _ => t = { s with ST := t.ST }
  | .ldBVx _ => t = { s with mem := t.mem, fault := t.fault }
  | .ldMemVx _ =>
    t = { s with mem := t.mem, I := if s.params.quirks.indexAdvance then t.I else s.I, fault := t.fault }
  | .ldVxMem _ =>
    t = { s with V := t.V, I := if s.params.quirks.indexAdvance then t.I else s.I, fault := t.fault }
  | .drw _ _ _ =>
    t = { s with V := t.V, pc := t.pc, fb := t.fb, shouldDraw := t.shouldDraw, fault := t.fault,
                 vblank := if s.params.quirks.displayWait then t.vblank else s.vblank }

/-- A block transfer leaves `I` alone unless `Q.index_advance` is set (R154, R155). -/
theorem State.advancedI_eq_ite (s : State) (x : Reg) :
    s.advancedI x = if s.params.quirks.indexAdvance then s.advancedI x else s.I := by
  rw [State.advancedI]
  split <;> rfl

/-- Every instruction changes only what it may. -/
theorem exec_changesOnly (h : exec i s = .next t) : ChangesOnly s t i := by
  cases i <;> (injection h with h; subst h)
  case ret => rcases s.pop_cases with ⟨_, e⟩ | ⟨_, e⟩ <;> rw [e] <;> exact rfl
  case call => rcases s.push_cases s.pc with ⟨_, e⟩ | ⟨_, e⟩ <;> rw [e] <;> exact rfl
  case skp x | sknp x => cases s.keyDown (s.reg x) <;> exact rfl
  case ldVxK => split <;> exact rfl
  case ldBVx x =>
    cases e : s.storeBytes (s.transferAddress 0) (bcdDigits (s.reg x)) with
    | error r => exact rfl
    | ok u =>
      rw [(State.storeBytes_frame _ _ e).1]
      exact rfl
  case ldMemVx x =>
    simp only [ChangesOnly]
    cases e : s.storeBytes (s.transferAddress 0) (s.regsUpTo x) with
    | error r => simp [State.raise]
    | ok u =>
      rw [(State.storeBytes_frame _ _ e).1]
      simp [State.setI, ← State.advancedI_eq_ite]
  case ldVxMem x =>
    simp only [ChangesOnly]
    cases s.loadBytes (s.transferAddress 0) (x.val + 1) with
    | error r => simp [State.raise]
    | ok bytes =>
      simp only [State.settle_ok]
      rw [State.setRegs_frame]
      simp [State.setI, ← State.advancedI_eq_ite]
  case drw x y n =>
    simp only [ChangesOnly]
    split
    · simp [State.rewind]
    · rw [State.drawSprite]
      cases s.loadBytes (s.transferAddress 0) n.toNat with
      | error r => simp [State.raise]
      | ok rows => cases s.params.quirks.displayWait <;> exact rfl
  all_goals exact rfl

/-! ### The registers an instruction may change -/

/-- Is register `r` among those the instruction writes, as its destination or as the flag (R21)? -/
def WritesReg (s : State) (r : Reg) : Instr → Prop
  | .ldImm x _ | .addImm x _ | .ldReg x _ | .rnd x _ | .ldVxDt x | .ldVxK x => r = x
  | .orReg x _ | .andReg x _ | .xorReg x _ => r = x ∨ (s.params.quirks.vfReset = true ∧ r = 15)
  | .addReg x _ | .sub x _ | .shr x _ | .subn x _ | .shl x _ => r = x ∨ r = 15
  | .drw _ _ _ => r = 15
  | .ldVxMem x => r ≤ x
  | _ => False

/-- A result with its flag leaves the other registers (R123). -/
theorem State.reg_setWithFlag_of_ne {r x : Reg} (s : State) (v : Byte) (c : Bool) (h : ¬ (r = x ∨ r = 15)) :
    (s.setWithFlag x v c).reg r = s.reg r := by
  rw [State.setWithFlag, State.reg_setFlag, if_neg (mt .inr h), State.reg_setReg, if_neg (mt .inl h)]

/-- A bitwise result with its flag leaves the other registers (R127 to R129). -/
theorem State.reg_setReg_bitwiseFlag_of_ne {r x : Reg} (s : State) (v : Byte)
    (h : ¬ (r = x ∨ (s.params.quirks.vfReset = true ∧ r = 15))) : (s.setReg x v).bitwiseFlag.reg r = s.reg r := by
  rw [State.reg_bitwiseFlag, State.setReg_params, if_neg (mt .inr h), State.reg_setReg, if_neg (mt .inl h)]

/-- Every instruction leaves the registers it does not write. -/
theorem exec_reg_of_not_writes {r : Reg} (h : exec i s = .next t) (hr : ¬ WritesReg s r i) : t.reg r = s.reg r := by
  have hframe := exec_changesOnly h
  cases i <;> (injection h with h; subst h)
  case ldImm | addImm | ldReg | rnd | ldVxDt => exact (State.reg_setReg ..).trans (if_neg hr)
  case orReg | andReg | xorReg => exact State.reg_setReg_bitwiseFlag_of_ne s _ hr
  case addReg | sub | shr | subn | shl => exact State.reg_setWithFlag_of_ne s _ _ hr
  case ldVxK x =>
    split
    · exact (State.reg_setReg ..).trans (if_neg hr)
    · rfl
  case ldVxMem x =>
    cases hload : s.loadBytes (s.transferAddress 0) (x.val + 1) with
    | error e => rfl
    | ok bytes =>
      have hlen := State.loadBytes_length _ _ hload
      have hx : ¬ r.val ≤ x.val := hr
      have hnone : bytes[r.val - 0]? = none := List.getElem?_eq_none (by omega)
      calc (s.setRegs 0 bytes).reg r = bytes[r.val - 0]?.getD (s.reg r) :=
            (State.reg_setRegs s 0 bytes (by omega) r).trans (if_pos r.val.zero_le)
        _ = s.reg r := by rw [hnone, Option.getD_none]
  case drw x y n =>
    split
    · rfl
    · rw [State.drawSprite]
      cases s.loadBytes (s.transferAddress 0) n.toNat with
      | error e => rfl
      | ok rows => exact (State.reg_setFlag ..).trans (if_neg hr)
  all_goals exact (congrArg (State.reg · r) hframe :)

/-- VF is written by the instructions R21 lists, and as a destination. -/
theorem writesReg_flag (h : WritesReg s 15 i) : Claims.writesFlag s i ∨ Claims.destinationIsFlag i := by
  cases i
  case ldImm | addImm | ldReg | rnd | ldVxDt | ldVxK => exact .inr (Eq.symm h)
  case orReg | andReg | xorReg => exact h.symm.imp And.left Eq.symm
  case addReg | sub | shr | subn | shl | drw => exact .inl trivial
  case ldVxMem x => exact .inr (le_antisymm (Fin.le_last x) h)
  all_goals exact h.elim

/-! ### `should_draw` -/

theorem State.drawStalled_iff : s.drawStalled = true ↔ ¬ Claims.drawProceeds s := by
  simp [State.drawStalled, Claims.drawProceeds]

/-- A draw that raises no fatal error sets `should_draw` unless display wait stalls it (R172, R173). -/
theorem exec_drw_shouldDraw {x y : Reg} {n : BitVec 4} (h : exec (.drw x y n) s = .next t) (hf : t.fault = none)
    (hs : s.shouldDraw = false) : t.shouldDraw = true ↔ Claims.drawProceeds s := by
  injection h with h
  subst h
  by_cases hd : Claims.drawProceeds s
  · rw [if_neg (mt State.drawStalled_iff.1 (not_not.2 hd)), State.drawSprite] at hf ⊢
    cases hload : s.loadBytes (s.transferAddress 0) n.toNat with
    | error e =>
      rw [hload] at hf
      cases hf
    | ok rows => exact iff_of_true rfl hd
  · rw [if_pos (State.drawStalled_iff.2 hd)]
    exact iff_of_false (by simp [hs]) hd

/-- What an instruction that raises no fatal error leaves in `should_draw`, where it starts cleared (R38). -/
theorem exec_shouldDraw (h : exec i s = .next t) (hf : t.fault = none) (hs : s.shouldDraw = false) :
    t.shouldDraw = true ↔
      (∃ x y n, i = .drw x y n ∧ Claims.drawProceeds s) ∨ (i = .cls ∧ s.params.clsSetsDraw = true) := by
  have hframe := exec_changesOnly h
  cases i
  case drw x y n => simpa using exec_drw_shouldDraw h hf hs
  case cls =>
    injection h with h
    subst h
    simp [hs]
  all_goals
    have hkept : t.shouldDraw = s.shouldDraw := (congrArg State.shouldDraw hframe :)
    simp [hkept, hs]

end Sys2Proof.Machine

/-! ## The statements of 10_state.md -/

namespace Sys2Proof.Proofs

open Sys2Proof.Machine Sys2Proof.Claims

/-- Settles O14: a step is a fatal error, which leaves memory, or an instruction, which keeps the invariant. -/
theorem everyStepKeepsTheMemoryInvariant : Obligations.EveryStepKeepsTheMemoryInvariant := by
  unfold Obligations.EveryStepKeepsTheMemoryInvariant
  exact fun s t hs h => step_keeps_inv hs h

/-- Settles O16: the invariant holds before and after the step, and fixes the reserved region. -/
theorem noStepChangesTheReservedRegion : Obligations.NoStepChangesTheReservedRegion := by
  unfold Obligations.NoStepChangesTheReservedRegion
  intro s t hs h a ha
  have ht : t.byteAt a = resetByte s.params a := by
    rw [(step_keeps_inv hs h).byteAt_reserved ha, (step_config h).1]
  exact ⟨ht.trans (hs.byteAt_reserved ha).symm, ht⟩

/-- Settles O17: the frame of every instruction keeps the configuration, and the end of the tick takes one input. -/
theorem noStepChangesTheConfiguration : Obligations.NoStepChangesTheConfiguration := by
  unfold Obligations.NoStepChangesTheConfiguration
  intro s t h
  obtain ⟨hparams, hloaded⟩ := step_config h
  exact ⟨hparams, hloaded, step_uses_one_input h⟩

/-- Settles O20: the end of the tick leaves `should_draw` as the instruction left it, and the tick's start cleared it. -/
theorem completedTickSetsShouldDraw : Obligations.CompletedTickSetsShouldDraw := by
  unfold Obligations.CompletedTickSetsShouldDraw
  intro s t i _ hi h hf
  obtain ⟨u, hexec, hu, rfl⟩ := completed_step hi h hf
  have hdraw := exec_shouldDraw hexec hu rfl
  exact hdraw

/-- Settles O21: every form but the two has `fb` outside the fields it may change. -/
theorem onlyDisplayInstructionsChangeTheFramebuffer : Obligations.OnlyDisplayInstructionsChangeTheFramebuffer := by
  unfold Obligations.OnlyDisplayInstructionsChangeTheFramebuffer
  intro i s t h hcls hdrw
  have hframe := exec_changesOnly h
  cases i
  case cls => exact absurd rfl hcls
  case drw x y n => exact absurd rfl (hdrw x y n)
  all_goals exact (congrArg State.fb hframe :)

/-- Settles O23: every form but the two has `stack` and `sp` outside the fields it may change. -/
theorem onlyCallAndReturnTouchTheStack : Obligations.OnlyCallAndReturnTouchTheStack := by
  unfold Obligations.OnlyCallAndReturnTouchTheStack
  intro i s t h hret hcall
  have hframe := exec_changesOnly h
  cases i
  case ret => exact absurd rfl hret
  case call nnn => exact absurd rfl (hcall nnn)
  all_goals exact ⟨(congrArg State.stack hframe :), (congrArg State.sp hframe :)⟩

/-- Settles O24: the block transfers may change `I` only under `Q.index_advance`, and all other forms not listed never. -/
theorem onlyListedInstructionsWriteTheIndex : Obligations.OnlyListedInstructionsWriteTheIndex := by
  unfold Obligations.OnlyListedInstructionsWriteTheIndex
  intro i s t h hi
  have hframe := exec_changesOnly h
  cases i
  case ldI | addIVx | ldFVx => exact absurd trivial hi
  case ldMemVx | ldVxMem => exact (congrArg State.I hframe).trans (if_neg hi)
  all_goals exact (congrArg State.I hframe :)

/-- Settles O25: an instruction that does not write VF leaves it, and R21's list with the destinations is all that
write it. -/
theorem onlyListedInstructionsWriteTheFlag : Obligations.OnlyListedInstructionsWriteTheFlag := by
  unfold Obligations.OnlyListedInstructionsWriteTheFlag
  intro i s t h hflag hdest
  exact exec_reg_of_not_writes h fun hw => (writesReg_flag hw).elim hflag hdest

/-- Settles O26: every form not listed has `pc` outside the fields it may change. -/
theorem onlyListedInstructionsMoveThePc : Obligations.OnlyListedInstructionsMoveThePc := by
  unfold Obligations.OnlyListedInstructionsMoveThePc
  intro i s t h hpc
  have hframe := exec_changesOnly h
  cases i
  case ret | jp | call | seImm | sneImm | seReg | sneReg | jpV0 | drw | skp | sknp | ldVxK => exact absurd trivial hpc
  all_goals exact (congrArg State.pc hframe :)

/-- Settles O27: the parts no instruction touches come from the frame of all, the three others from the fields each may
change. -/
theorem instructionsLeaveTheHostSideAlone : Obligations.InstructionsLeaveTheHostSideAlone := by
  unfold Obligations.InstructionsLeaveTheHostSideAlone
  intro i s t h
  have hhost := exec_frame h
  have hframe := exec_changesOnly h
  refine ⟨fun hi => ?_, fun hi => ?_, fun hi => ?_,
    hhost.lastTick, hhost.keyState, hhost.params, hhost.loaded, hhost.inputs, hhost.ticks⟩
  · cases i
    case ldDtVx x => exact absurd rfl (hi x)
    all_goals exact (congrArg State.DT hframe :)
  · cases i
    case ldStVx x => exact absurd rfl (hi x)
    all_goals exact (congrArg State.ST hframe :)
  · cases i
    case drw x y n => exact (congrArg State.vblank hframe).trans (if_neg fun hq => hi hq x y n rfl)
    all_goals exact (congrArg State.vblank hframe :)

/-- Settles O29, by `Memory.ext_read`, an induction on the two lists. -/
theorem canonicalMemoriesWithTheSameBytesAreEqual : Obligations.CanonicalMemoriesWithTheSameBytesAreEqual := by
  unfold Obligations.CanonicalMemoriesWithTheSameBytesAreEqual
  exact fun _ _ _ hm hm' hread => Memory.ext_read hm hm' hread

/-- Settles O5: every field has the value R43 lists, and a byte of memory is the reset byte. -/
theorem initializeLeavesTheResetState : Obligations.InitializeLeavesTheResetState := by
  unfold Obligations.InitializeLeavesTheResetState
  rintro p now0 s rfl
  exact ⟨fun r => Vector.getElem_replicate r.isLt, rfl, rfl, rfl, rfl, rfl, rfl, rfl, Frame.pixel_clear,
    fun k => Vector.getElem_replicate k.isLt, rfl, rfl, rfl, rfl, resetByte_font p, fun _ => resetByte_outside_font⟩

/-- Settles O15: no byte is listed. -/
theorem initializedMemoryHasTheInvariant : Obligations.InitializedMemoryHasTheInvariant := by
  unfold Obligations.InitializedMemoryHasTheInvariant
  exact ⟨fun _ _ => .of_mem_nil rfl, .of_mem_nil rfl⟩

end Sys2Proof.Proofs

/-! ## Memory: who writes it, and one checked store (20_memory.md) -/

namespace Sys2Proof.Machine

variable {s t : State} {i : Instr}

/-- Every instruction but the two that store bytes has `mem` outside the fields it may change. -/
theorem exec_mem_of_not_storesBytes (h : exec i s = .next t) (hi : ¬ Claims.storesBytes i) : t.mem = s.mem := by
  have hframe := exec_changesOnly h
  cases i
  case ldBVx | ldMemVx => exact absurd trivial hi
  all_goals exact (congrArg State.mem hframe :)

/-- Where memory has its invariant, a written byte is read back and every other byte is as before. -/
theorem State.Inv.byteAt_write (h : s.Inv) (a b : Nat) (v : Byte) :
    State.byteAt { s with mem := Memory.write s.params s.mem a v } b = if b = a then v else s.byteAt b := by
  obtain ⟨⟨hsorted, -⟩, -⟩ := h
  exact Memory.read_write hsorted a b v

end Sys2Proof.Machine

/-! ## The statements of 20_memory.md -/

namespace Sys2Proof.Proofs

open Sys2Proof.Machine Sys2Proof.Claims

/-- Settles O22: the list of written bytes stays, and so does the configuration, which gives the unwritten ones. -/
theorem onlyStoringInstructionsChangeMemory : Obligations.OnlyStoringInstructionsChangeMemory := by
  unfold Obligations.OnlyStoringInstructionsChangeMemory
  intro i s t h hi
  have hmem := exec_mem_of_not_storesBytes h hi
  exact ⟨hmem, State.byteAt_congr hmem (exec_frame h).params⟩

/-- Settles O30: above 0xFFF and below 0x200 the checks of R56 raise; between them the store writes its one byte. -/
theorem checkedStoreWritesOneByteOrRaises : Obligations.CheckedStoreWritesOneByteOrRaises := by
  unfold Obligations.CheckedStoreWritesOneByteOrRaises
  intro s a v hs
  refine ⟨s.memWrite_high v, s.memWrite_low v, fun hlow hhigh => ?_⟩
  exact ⟨_, State.memWrite_ok v hlow hhigh, hs.write v hlow hhigh, rfl, fun b => hs.byteAt_write a b v⟩

end Sys2Proof.Proofs

/-! ## The decoder, the encoder and the table (30_encoding.md) -/

namespace Sys2Proof

/-! ### The decoder and the encoder undo each other -/

/-- The decoder reads every field the encoder has written: the cases go by the sub-decoder the high nibble calls. -/
theorem decode_encode (i : Instr) : decode (encode i) = .ok i := by
  cases i
  case cls | ret => rfl
  case jp | call | ldI | jpV0 | seImm | sneImm | ldImm | addImm | rnd | drw => simp [encode, decode]
  case seReg | sneReg => simp [encode, decode, decodeRegisterSkip]
  case ldReg | orReg | andReg | xorReg | addReg | sub | shr | subn | shl => simp [encode, decode, decodeArithmetic]
  case skp | sknp => simp [encode, decode, decodeKey]
  case ldVxDt | ldVxK | ldDtVx | ldStVx | addIVx | ldFVx | ldBVx | ldMemVx | ldVxMem => simp [encode, decode, decodeMisc]

section
variable {w : Word} {i j : Instr}

theorem encode_of_decodeZero (h : decodeZero w = .ok i) : encode i = w := by
  unfold decodeZero at h
  split at h <;> cases h <;> rfl

theorem encode_of_decodeRegisterSkip (hj : nField w = 0 → encode j = w) (h : decodeRegisterSkip w j = .ok i) :
    encode i = w := by
  unfold decodeRegisterSkip at h
  split at h <;> cases h
  exact hj ‹_›

theorem encode_of_decodeArithmetic (ho : opField w = 8) (h : decodeArithmetic w = .ok i) : encode i = w := by
  unfold decodeArithmetic at h
  split at h <;> cases h <;> exact packXYN_fields w ho ‹_›

theorem encode_of_decodeKey (ho : opField w = 14) (h : decodeKey w = .ok i) : encode i = w := by
  unfold decodeKey at h
  split at h <;> cases h <;> exact packXK_fields w ho ‹_›

theorem encode_of_decodeMisc (ho : opField w = 15) (h : decodeMisc w = .ok i) : encode i = w := by
  unfold decodeMisc at h
  split at h <;> cases h <;> exact packXK_fields w ho ‹_›

/-- No bit of a legal word is ignored: one case for each high nibble, 0 to 15, and the sub-decoders for the rest. -/
theorem encode_of_decode (h : decode w = .ok i) : encode i = w := by
  rcases nibble_cases (opField w) with
    ho | ho | ho | ho | ho | ho | ho | ho | ho | ho | ho | ho | ho | ho | ho | ho <;>
    simp only [decode, ho] at h
  · exact encode_of_decodeZero h
  · cases h; exact packA_fields w ho
  · cases h; exact packA_fields w ho
  · cases h; exact packXK_fields w ho rfl
  · cases h; exact packXK_fields w ho rfl
  · exact encode_of_decodeRegisterSkip (packXYN_fields w ho) h
  · cases h; exact packXK_fields w ho rfl
  · cases h; exact packXK_fields w ho rfl
  · exact encode_of_decodeArithmetic ho h
  · exact encode_of_decodeRegisterSkip (packXYN_fields w ho) h
  · cases h; exact packA_fields w ho
  · cases h; exact packA_fields w ho
  · cases h; exact packXK_fields w ho rfl
  · cases h; exact packXYN_fields w ho rfl
  · exact encode_of_decodeKey ho h
  · exact encode_of_decodeMisc ho h

end

/-- What the decoder accepts is what the encoder gives. -/
theorem decode_eq_ok_iff {w : Word} {i : Instr} : decode w = .ok i ↔ encode i = w :=
  ⟨encode_of_decode, fun h => h ▸ decode_encode i⟩

/-! ### The decoder and the table -/

section
/-! The word of a row is put together again from its fields, for each mask of the table and each shape of R74. -/

variable {w v : Word} {m : String} {o n : BitVec 4} {kk : Byte}

theorem opField_of_hasWord (hw : OpcodeRow.hasWord ⟨m, 0xF000, v⟩ w = true) (hv : v.toNat = o.toNat * 4096) :
    opField w = o := by
  rw [hasWord_F000, decide_eq_true_eq] at hw
  apply BitVec.eq_of_toNat_eq
  rw [opField_toNat]
  omega

theorem packA_of_hasWord (hw : OpcodeRow.hasWord ⟨m, 0xF000, v⟩ w = true) (hv : v.toNat = o.toNat * 4096) :
    packA o (nnnField w) = w :=
  packA_fields w (opField_of_hasWord hw hv)

theorem packXK_of_hasWord (hw : OpcodeRow.hasWord ⟨m, 0xF000, v⟩ w = true) (hv : v.toNat = o.toNat * 4096) :
    packXK o (xField w) (kkField w) = w :=
  packXK_fields w (opField_of_hasWord hw hv) rfl

theorem packXYN_of_hasWord (hw : OpcodeRow.hasWord ⟨m, 0xF000, v⟩ w = true) (hv : v.toNat = o.toNat * 4096) :
    packXYN o (xField w) (yField w) (nField w) = w :=
  packXYN_fields w (opField_of_hasWord hw hv) rfl

theorem packXK_of_hasWord_F0FF (hw : OpcodeRow.hasWord ⟨m, 0xF0FF, v⟩ w = true)
    (hv : v.toNat = o.toNat * 4096 + kk.toNat) : packXK o (xField w) kk = w := by
  have := kk.isLt
  rw [hasWord_F0FF, decide_eq_true_eq] at hw
  have ho : opField w = o := BitVec.eq_of_toNat_eq (by rw [opField_toNat]; omega)
  have hkk : kkField w = kk := BitVec.eq_of_toNat_eq (by rw [kkField_toNat]; omega)
  exact packXK_fields w ho hkk

theorem packXYN_of_hasWord_F00F (hw : OpcodeRow.hasWord ⟨m, 0xF00F, v⟩ w = true)
    (hv : v.toNat = o.toNat * 4096 + n.toNat) : packXYN o (xField w) (yField w) n = w := by
  have := n.isLt
  rw [hasWord_F00F, decide_eq_true_eq] at hw
  have ho : opField w = o := BitVec.eq_of_toNat_eq (by rw [opField_toNat]; omega)
  have hn : nField w = n := BitVec.eq_of_toNat_eq (by rw [nField_toNat]; omega)
  exact packXYN_fields w ho hn

theorem eq_of_hasWord (hw : OpcodeRow.hasWord ⟨m, 0xFFFF, v⟩ w = true) : v = w := by
  rw [hasWord_FFFF, decide_eq_true_eq] at hw
  exact (BitVec.eq_of_toNat_eq hw).symm

end

/-- A word with the bits of a row of R75 is the word of some instruction. -/
theorem exists_encode_eq_of_hasWord (w : Word) : ∀ r ∈ opcodeRows, r.hasWord w = true → ∃ i, encode i = w := by
  simp only [opcodeRows, opcodeRows1, opcodeRows2, opcodeRows3, opcodeRows4, List.cons_append, List.nil_append,
    List.forall_mem_cons]
  exact ⟨
    fun h => ⟨.cls, eq_of_hasWord h⟩,
    fun h => ⟨.ret, eq_of_hasWord h⟩,
    fun h => ⟨.jp _, packA_of_hasWord h rfl⟩,
    fun h => ⟨.call _, packA_of_hasWord h rfl⟩,
    fun h => ⟨.seImm _ _, packXK_of_hasWord h rfl⟩,
    fun h => ⟨.sneImm _ _, packXK_of_hasWord h rfl⟩,
    fun h => ⟨.seReg _ _, packXYN_of_hasWord_F00F h rfl⟩,
    fun h => ⟨.ldImm _ _, packXK_of_hasWord h rfl⟩,
    fun h => ⟨.addImm _ _, packXK_of_hasWord h rfl⟩,
    fun h => ⟨.ldReg _ _, packXYN_of_hasWord_F00F h rfl⟩,
    fun h => ⟨.orReg _ _, packXYN_of_hasWord_F00F h rfl⟩,
    fun h => ⟨.andReg _ _, packXYN_of_hasWord_F00F h rfl⟩,
    fun h => ⟨.xorReg _ _, packXYN_of_hasWord_F00F h rfl⟩,
    fun h => ⟨.addReg _ _, packXYN_of_hasWord_F00F h rfl⟩,
    fun h => ⟨.sub _ _, packXYN_of_hasWord_F00F h rfl⟩,
    fun h => ⟨.shr _ _, packXYN_of_hasWord_F00F h rfl⟩,
    fun h => ⟨.subn _ _, packXYN_of_hasWord_F00F h rfl⟩,
    fun h => ⟨.shl _ _, packXYN_of_hasWord_F00F h rfl⟩,
    fun h => ⟨.sneReg _ _, packXYN_of_hasWord_F00F h rfl⟩,
    fun h => ⟨.ldI _, packA_of_hasWord h rfl⟩,
    fun h => ⟨.jpV0 _, packA_of_hasWord h rfl⟩,
    fun h => ⟨.rnd _ _, packXK_of_hasWord h rfl⟩,
    fun h => ⟨.drw _ _ _, packXYN_of_hasWord h rfl⟩,
    fun h => ⟨.skp _, packXK_of_hasWord_F0FF h rfl⟩,
    fun h => ⟨.sknp _, packXK_of_hasWord_F0FF h rfl⟩,
    fun h => ⟨.ldVxDt _, packXK_of_hasWord_F0FF h rfl⟩,
    fun h => ⟨.ldVxK _, packXK_of_hasWord_F0FF h rfl⟩,
    fun h => ⟨.ldDtVx _, packXK_of_hasWord_F0FF h rfl⟩,
    fun h => ⟨.ldStVx _, packXK_of_hasWord_F0FF h rfl⟩,
    fun h => ⟨.addIVx _, packXK_of_hasWord_F0FF h rfl⟩,
    fun h => ⟨.ldFVx _, packXK_of_hasWord_F0FF h rfl⟩,
    fun h => ⟨.ldBVx _, packXK_of_hasWord_F0FF h rfl⟩,
    fun h => ⟨.ldMemVx _, packXK_of_hasWord_F0FF h rfl⟩,
    fun h => ⟨.ldVxMem _, packXK_of_hasWord_F0FF h rfl⟩,
    nofun⟩

open Laws in
/-- The word of an instruction has the bits of the row with the instruction's name. -/
theorem encode_hasRow (i : Instr) : TableRow.Statement i := by
  cases i
  exacts [TableRow.cls, TableRow.ret, TableRow.jp _, TableRow.call _, TableRow.seImm _ _, TableRow.sneImm _ _,
    TableRow.seReg _ _, TableRow.ldImm _ _, TableRow.addImm _ _, TableRow.ldReg _ _, TableRow.orReg _ _,
    TableRow.andReg _ _, TableRow.xorReg _ _, TableRow.addReg _ _, TableRow.sub _ _, TableRow.shr _ _,
    TableRow.subn _ _, TableRow.shl _ _, TableRow.sneReg _ _, TableRow.ldI _, TableRow.jpV0 _, TableRow.rnd _ _,
    TableRow.drw _ _ _, TableRow.skp _, TableRow.sknp _, TableRow.ldVxDt _, TableRow.ldVxK _, TableRow.ldDtVx _,
    TableRow.ldStVx _, TableRow.addIVx _, TableRow.ldFVx _, TableRow.ldBVx _, TableRow.ldMemVx _,
    TableRow.ldVxMem _]

/-- The decoder and the table agree on which words are legal (R77). -/
theorem exists_decode_iff_wordWf (w : Word) : (∃ i, decode w = .ok i) ↔ wordWf w = true := by
  simp only [decode_eq_ok_iff]
  rw [wordWf, List.any_eq_true]
  constructor
  · rintro ⟨i, rfl⟩
    obtain ⟨r, hr, -, hw⟩ := encode_hasRow i
    exact ⟨r, hr, hw⟩
  · rintro ⟨r, hr, hw⟩
    exact exists_encode_eq_of_hasWord w r hr hw

/-- The decoder rejects an illegal word. -/
theorem decode_eq_error_of_not_wordWf {w : Word} (h : wordWf w = false) : ∃ e, decode w = .error e := by
  cases hd : decode w with
  | error e => exact ⟨e, rfl⟩
  | ok i => simp [(exists_decode_iff_wordWf w).1 ⟨i, hd⟩] at h

/-! ### A word has the bits of at most one row -/

/-- Two rows of which no word has both rows' bits: they differ in a bit that both fix. -/
def OpcodeRow.Apart (r r' : OpcodeRow) : Prop :=
  r.value &&& r'.mask ≠ r'.value &&& r.mask

theorem OpcodeRow.Apart.not_hasWord {r r' : OpcodeRow} {w : Word} (h : r.Apart r') (hr : r.hasWord w = true) :
    ¬ r'.hasWord w = true := by
  intro hr'
  apply h
  rw [OpcodeRow.hasWord, beq_iff_eq] at hr hr'
  rw [← hr, ← hr', BitVec.and_assoc, BitVec.and_assoc, BitVec.and_comm r.mask]

/-- Any two rows of R75 are apart: a finite check of the table. -/
theorem opcodeRows_apart : opcodeRows.Pairwise OpcodeRow.Apart := by
  unfold OpcodeRow.Apart
  decide

/-- A row whose bits the word has is the only one. -/
theorem rowsOf_eq_singleton {w : Word} {r : OpcodeRow} (hr : r ∈ opcodeRows) (hw : r.hasWord w = true) :
    rowsOf w = [r] := by
  have hmem : r ∈ rowsOf w := List.mem_filter.2 ⟨hr, hw⟩
  have hword : ∀ q ∈ rowsOf w, q.hasWord w = true := fun q hq => (List.mem_filter.1 hq).2
  have hapart : (rowsOf w).Pairwise OpcodeRow.Apart := opcodeRows_apart.filter _
  match rowsOf w, hmem, hword, hapart with
  | [q], hmem, _, _ => rw [List.mem_singleton.1 hmem]
  | q :: q' :: _, _, hword, hapart =>
    have hqq' : q.Apart q' := List.rel_of_pairwise_cons hapart (by simp)
    exact absurd (hword q' (by simp)) (hqq'.not_hasWord (hword q (by simp)))

/-- The one row of an instruction's word has the instruction's name. -/
theorem rowsOf_encode (i : Instr) : (rowsOf (encode i)).map OpcodeRow.mnemonic = [i.mnemonic] := by
  obtain ⟨r, hr, hname, hw⟩ := encode_hasRow i
  rw [rowsOf_eq_singleton hr hw, List.map_singleton, hname]

end Sys2Proof

/-! ## The step of a running machine -/

namespace Sys2Proof.Machine

open Sys2Proof.Claims

variable {s t : State} {i : Instr}

/-- The fetch of a tick that starts at an even `pc` below 0xFFF (R80, R81). -/
theorem beginTick_fetch_ok (heven : s.pc.toNat % 2 = 0) (hhigh : s.pc.toNat ≤ 0xFFE) :
    s.beginTick.fetch = .ok (s.byteAt s.pc.toNat ++ s.byteAt (s.pc.toNat + 1), executing s) :=
  State.fetch_ok heven hhigh

/-- Where no instruction can be fetched, the step is the fatal error of R81. -/
theorem step_fetch_error (hr : s.Runs) (hpc : s.pc.toNat % 2 = 1 ∨ 0xFFE < s.pc.toNat) :
    step s = .next { s with fault := some ⟨.fetchFault, s.pc, .address s.pc.toNat⟩ } := by
  rw [step_of_runs hr, tick, s.beginTick.fetch_error hpc]
  rfl

/-- Where the word at `pc` is no instruction, the step is the fatal error of R77. -/
theorem step_decode_error {w : Word} {e : Reject} (hr : s.Runs) (heven : s.pc.toNat % 2 = 0)
    (hhigh : s.pc.toNat ≤ 0xFFE) (hw : w = s.byteAt s.pc.toNat ++ s.byteAt (s.pc.toNat + 1))
    (he : decode w = .error e) :
    step s = .next { s with fault := some ⟨.illegalInstruction, s.pc, .word s.pc w⟩ } := by
  subst hw
  rw [step_of_runs hr, tick, beginTick_fetch_ok heven hhigh]
  simp only [he]
  rfl

/-- Where the word at `pc` is an instruction, the step is the instruction and the end of the tick. -/
theorem step_exec (hr : s.Runs) (hi : fetches s i) (h : exec i (executing s) = .next t) :
    step s = .next (s.endTick t) := by
  obtain ⟨heven, hhigh, hd⟩ := hi
  rw [step_of_runs hr, tick, beginTick_fetch_ok heven hhigh]
  simp only [hd, h]

/-- The model's count-down is the statements' (R226). -/
theorem countDown_eq_oneLower (v : Byte) : countDown v = oneLower v := by
  apply BitVec.eq_of_toNat_eq
  rw [countDown_toNat, oneLower, BitVec.toNat_ofNat]
  omega

/-- The end of a completed tick at which a period has elapsed: both timers go one lower (R226). -/
theorem endTick_of_periodElapsed (h : t.fault = none) (hp : periodElapsedAt t) :
    s.endTick t = { t with DT := oneLower t.DT, ST := oneLower t.ST, lastTick := t.input.now, vblank := true,
                           inputs := t.inputs.tail, ticks := t.ticks + 1 } := by
  have hp := (periodElapsed_iff _ _).2 hp
  rw [State.endTick_none h, State.timerUpdate, hp]
  simp only [State.consumeInput, countDown_eq_oneLower]
  rfl

/-- The end of a completed tick at which no period has elapsed: the timers stay (R226). -/
theorem endTick_of_not_periodElapsed (h : t.fault = none) (hp : ¬ periodElapsedAt t) :
    s.endTick t = { t with inputs := t.inputs.tail, ticks := t.ticks + 1 } := by
  have hp := Bool.eq_false_iff.2 fun he => hp ((periodElapsed_iff _ _).1 he)
  rw [State.endTick_none h, State.timerUpdate, hp]
  rfl

end Sys2Proof.Machine

/-! ## The statements of 30_encoding.md -/

namespace Sys2Proof.Proofs

open Sys2Proof.Machine Sys2Proof.Claims

/-- Settles O1: by cases on the instruction, each sub-decoder reads the fields the encoder has written. -/
theorem decodingAnEncodedInstructionGivesItBack : Obligations.DecodingAnEncodedInstructionGivesItBack := by
  unfold Obligations.DecodingAnEncodedInstructionGivesItBack
  exact decode_encode

/-- Settles O2: by cases on the high nibble, then on the branches of its sub-decoder. -/
theorem encodingADecodedWordGivesItBack : Obligations.EncodingADecodedWordGivesItBack := by
  unfold Obligations.EncodingADecodedWordGivesItBack
  exact fun _ _ h => encode_of_decode h

/-- Settles O3: the words of a row are those of an instruction, and no word has the bits of two rows. -/
theorem wordDecodesIffItHasTheBitsOfOneRow : Obligations.WordDecodesIffItHasTheBitsOfOneRow := by
  unfold Obligations.WordDecodesIffItHasTheBitsOfOneRow
  refine fun w => ⟨exists_decode_iff_wordWf w, fun i h => ?_⟩
  obtain rfl := encode_of_decode h
  exact rowsOf_encode i

/-- Settles O9: a fetch fault and an illegal word are steps, and so is every instruction, which answers a next state. -/
theorem everyRunningStateHasAStep : Obligations.EveryRunningStateHasAStep := by
  unfold Obligations.EveryRunningStateHasAStep
  intro s hr
  rcases s.fetch_cases with ⟨heven, hhigh, -⟩ | ⟨hpc, -⟩
  · cases hd : decode (s.byteAt s.pc.toNat ++ s.byteAt (s.pc.toNat + 1)) with
    | error e => exact ⟨_, step_decode_error hr heven hhigh rfl hd⟩
    | ok i =>
      obtain ⟨t, ht⟩ := exec_next i (executing s)
      exact ⟨_, step_exec hr ⟨heven, hhigh, hd⟩ ht⟩
  · exact ⟨_, step_fetch_error hr hpc⟩

/-- Settles O12: the decoder rejects what the table has no row for. -/
theorem illegalWordIsFatal : Obligations.IllegalWordIsFatal := by
  unfold Obligations.IllegalWordIsFatal
  intro s w hr heven hhigh hw hwf
  obtain ⟨e, he⟩ := decode_eq_error_of_not_wordWf hwf
  exact step_decode_error hr heven hhigh hw he

/-- Settles O4: the decoder run on each word. -/
theorem writtenOutWordsDecodeAsTheTableSays : Obligations.WrittenOutWordsDecodeAsTheTableSays := by
  unfold Obligations.WrittenOutWordsDecodeAsTheTableSays
  exact ⟨rfl, rfl, rfl, rfl, rfl, rfl, rfl, rfl, rfl, rfl, rfl, rfl, rfl, rfl, rfl, rfl, rfl, rfl⟩

/-- Settles O8: the instruction answers a next state, and the end of the tick goes by its fault and by the clock. -/
theorem stepRunsTheDecodedInstruction : Obligations.StepRunsTheDecodedInstruction := by
  unfold Obligations.StepRunsTheDecodedInstruction
  intro s i hr hi
  refine ⟨?_, fun t r h => State.endTick_some h, fun t => endTick_of_periodElapsed,
    fun t => endTick_of_not_periodElapsed⟩
  obtain ⟨t, ht⟩ := exec_next i (executing s)
  rw [ht]
  exact step_exec hr hi ht

/-- Settles O11: the fetch check of R81 fails, and the tick ends with its record. -/
theorem fetchAtABadAddressIsFatal : Obligations.FetchAtABadAddressIsFatal := by
  unfold Obligations.FetchAtABadAddressIsFatal
  exact fun _ hr hpc => step_fetch_error hr hpc

end Sys2Proof.Proofs

/-! ## Control transfer: return and call, the jumps and the skips (40_control_flow.md) -/

namespace Sys2Proof.Machine

variable {s : State}

/-! ### Return and call -/

/-- A return with a valid entry takes the topmost one for `pc` (R101). -/
theorem exec_ret_of_pos (h : 0 < s.sp.val) :
    exec .ret s = .next { s with pc := s.stack[s.sp.val - 1], sp := ⟨s.sp.val - 1, by omega⟩ } := by
  obtain ⟨_, hpop⟩ := s.pop_cases.resolve_right fun hempty => h.ne' hempty.1
  rw [exec, execRet, hpop]
  rfl

/-- A return with no valid entry raises (R101). -/
theorem exec_ret_of_empty (h : s.sp.val = 0) :
    exec .ret s = .next (s.raise (.stackUnderflow, .address s.instrAddress.toNat)) := by
  obtain ⟨_, hpop⟩ := s.pop_cases.resolve_left fun ⟨hpos, _⟩ => hpos.ne' h
  rw [exec, execRet, hpop, State.settle_error]

/-- A call with room on the stack puts `pc` on top and jumps (R103). -/
theorem exec_call_of_lt (nnn : BitVec 12) (h : s.sp.val < 32) :
    exec (.call nnn) s = .next { s with
      pc := addressOf nnn, stack := s.stack.set s.sp.val s.pc, sp := ⟨s.sp.val + 1, Nat.succ_lt_succ h⟩ } := by
  obtain ⟨_, hpush⟩ := (s.push_cases s.pc).resolve_right fun hfull => h.ne hfull.1
  rw [exec, execCall, hpush]
  rfl

/-- A call with a full stack raises (R103). -/
theorem exec_call_of_full (nnn : BitVec 12) (h : s.sp.val = 32) :
    exec (.call nnn) s = .next (s.raise (.stackOverflow, .address s.instrAddress.toNat)) := by
  obtain ⟨_, hpush⟩ := (s.push_cases s.pc).resolve_left fun ⟨hlt, _⟩ => hlt.ne h
  rw [exec, execCall, hpush, State.settle_error]

/-! ### Jumps and skips -/

/-- Zero-extension keeps the value of an address field (R73). -/
@[simp] theorem addressOf_toNat (nnn : BitVec 12) : (addressOf nnn).toNat = nnn.toNat :=
  BitVec.toNat_setWidth_of_le (by decide)

/-- Zero-extension keeps the value of a byte (R73). -/
@[simp] theorem wordOf_toNat (b : Byte) : (wordOf b).toNat = b.toNat :=
  BitVec.toNat_setWidth_of_le (by decide)

/-- A 12-bit address and a byte add up to at most 0x10FE, so `pc` does not wrap (R108). -/
theorem addressOf_add_wordOf_toNat (nnn : BitVec 12) (b : Byte) :
    (addressOf nnn + wordOf b).toNat = nnn.toNat + b.toNat := by
  have hnnn := nnn.isLt
  have hb := b.isLt
  rw [BitVec.toNat_add, addressOf_toNat, wordOf_toNat, Nat.mod_eq_of_lt (by omega)]

/-- Without `Q.jump_vx` the offset is in `V[0]` (R108). -/
theorem State.offsetReg_of_not_jumpVx (nnn : BitVec 12) (h : s.params.quirks.jumpVx = false) : s.offsetReg nnn = 0 :=
  if_neg (by simp [h])

/-- Under `Q.jump_vx` the offset is in the register the high nibble of the address names (R108). -/
theorem State.offsetReg_of_jumpVx (nnn : BitVec 12) (h : s.params.quirks.jumpVx = true) :
    (s.offsetReg nnn).val = nnn.toNat / 256 := by
  have hnnn := nnn.isLt
  rw [State.offsetReg, if_pos h, BitVec.val_toFin, BitVec.extractLsb'_toNat, Nat.shiftRight_eq_div_pow]
  omega

/-- A skip by a test of a condition moves `pc` where the condition holds (R100). -/
theorem State.skipIf_of_iff {c : Bool} {p : Prop} [Decidable p] (s : State) (h : c = true ↔ p) :
    s.skipIf c = { s with pc := if p then s.pc + 2 else s.pc } := by
  simp only [State.skipIf, h]

end Sys2Proof.Machine

/-! ## The statements of 40_control_flow.md -/

namespace Sys2Proof.Proofs

open Sys2Proof.Machine

/-- Settles O34: the call leaves its return address as the topmost entry, and that is the one the return takes. -/
theorem returnUndoesACall : Obligations.ReturnUndoesACall := by
  unfold Obligations.ReturnUndoesACall
  intro s t nnn pc' hsp hcall
  rw [exec_call_of_lt nnn hsp] at hcall
  cases hcall
  have htop : (s.stack.set s.sp.val s.pc)[s.sp.val + 1 - 1] = s.pc := Vector.getElem_set_self _
  rw [exec_ret_of_pos (Nat.succ_pos _)]
  simp only [htop]
  rfl

/-- Settles O36: the sum fits 16 bits, and the quirk selects the register. -/
theorem offsetJumpAddsTheSelectedRegister : Obligations.OffsetJumpAddsTheSelectedRegister := by
  unfold Obligations.OffsetJumpAddsTheSelectedRegister
  intro s nnn
  have hsum := addressOf_add_wordOf_toNat nnn (s.reg (s.offsetReg nnn))
  refine ⟨_, rfl, rfl, fun hq => ?_, fun hq x hx => ?_⟩
  · exact hsum.trans (by rw [State.offsetReg_of_not_jumpVx nnn hq])
  · exact hsum.trans (by rw [Fin.ext ((State.offsetReg_of_jumpVx nnn hq).trans hx.symm)])

/-- Settles O31: the two outcomes of `Pop()`. -/
theorem returnPopsOrUnderflows : Obligations.ReturnPopsOrUnderflows := by
  unfold Obligations.ReturnPopsOrUnderflows
  refine fun s => ⟨fun h => ⟨_, exec_ret_of_pos h, ?_, rfl, rfl⟩, exec_ret_of_empty⟩
  exact Vector.getElem?_eq_getElem _

/-- Settles O32: zero-extension keeps the address. -/
theorem jumpSetsThePc : Obligations.JumpSetsThePc := by
  unfold Obligations.JumpSetsThePc
  exact fun s nnn => ⟨_, rfl, addressOf_toNat nnn, rfl⟩

/-- Settles O33: the two outcomes of `Push(pc)`; a push sets one entry. -/
theorem callPushesOrOverflows : Obligations.CallPushesOrOverflows := by
  unfold Obligations.CallPushesOrOverflows
  refine fun s nnn => ⟨fun h => ⟨_, exec_call_of_lt nnn h, addressOf_toNat nnn, rfl, ?_, fun j hj => ?_, rfl⟩,
    exec_call_of_full nnn⟩
  · exact Vector.getElem?_set_self h
  · exact Vector.getElem_set_ne h _ hj.symm

/-- Settles O35: the test each skip makes decides its condition. -/
theorem skipsAdvanceThePcByTwo : Obligations.SkipsAdvanceThePcByTwo := by
  unfold Obligations.SkipsAdvanceThePcByTwo
  intro s x y kk
  refine ⟨congrArg Host.Outcome.next ?_, congrArg Host.Outcome.next ?_,
    congrArg Host.Outcome.next ?_, congrArg Host.Outcome.next ?_⟩
  · exact s.skipIf_of_iff beq_iff_eq
  · exact s.skipIf_of_iff bne_iff_ne
  · exact s.skipIf_of_iff beq_iff_eq
  · exact s.skipIf_of_iff bne_iff_ne

end Sys2Proof.Proofs

/-! ## The result and its flag; the inputs an instruction reads (41_alu.md) -/

namespace Sys2Proof.Machine

variable {s t : State} {i : Instr}

/-! ### A result and its flag (R123) -/

theorem State.reg_setReg_self (s : State) (x : Reg) (v : Byte) : (s.setReg x v).reg x = v := by
  rw [State.reg_setReg, if_pos rfl]

theorem State.reg_setReg_of_ne {r x : Reg} (s : State) (v : Byte) (h : r ≠ x) : (s.setReg x v).reg r = s.reg r := by
  rw [State.reg_setReg, if_neg h]

/-- The result stays where the flag does not overwrite it. -/
theorem State.reg_setWithFlag_self {x : Reg} (s : State) (v : Byte) (c : Bool) (hx : x ≠ 15) :
    (s.setWithFlag x v c).reg x = v := by
  rw [State.setWithFlag, State.reg_setFlag, if_neg hx, State.reg_setReg_self]

/-- The flag is written last, so VF holds it whatever the destination is (decision D11). -/
theorem State.reg_setWithFlag_flag (s : State) (x : Reg) (v : Byte) (c : Bool) :
    (s.setWithFlag x v c).reg 15 = flagByte c := by
  rw [State.setWithFlag, State.reg_setFlag, if_pos rfl]

/-- Without `Q.vf_reset` a bitwise form has no flag. -/
theorem State.bitwiseFlag_of_not_vfReset (h : s.params.quirks.vfReset = false) : s.bitwiseFlag = s := by
  simp [State.bitwiseFlag, h]

/-! ### The flag conditions (R124) -/

theorem flagByte_decide (p : Prop) [Decidable p] : flagByte (decide p) = if p then 1 else 0 := by
  simp only [flagByte, decide_eq_true_eq]

@[simp] theorem flagByte_toNat (c : Bool) : (flagByte c).toNat = c.toNat := by
  cases c <;> rfl

/-- A right shift by one evicts the remainder by 2 (R132). -/
theorem evictedRight_toNat (v : Byte) : (evictedRight v).toNat = v.toNat % 2 := by
  rw [evictedRight, BitVec.getLsbD, Nat.toNat_testBit, Nat.pow_zero, Nat.div_one]

/-- A left shift by one evicts the quotient by 128 (R134). -/
theorem evictedLeft_toNat (v : Byte) : (evictedLeft v).toNat = v.toNat / 128 := by
  have hv := v.isLt
  rw [evictedLeft, BitVec.getLsbD, Nat.toNat_testBit]
  omega

/-- The difference of two bytes is that of their values modulo 256 (R131). -/
theorem sub_toNat_eq_emod (a b : Byte) : ((a - b).toNat : Int) = ((a.toNat : Int) - b.toNat) % 256 := by
  have ha := a.isLt
  have hb := b.isLt
  rw [BitVec.toNat_sub]
  omega

/-! ### The inputs an instruction reads -/

/-- The state with other inputs lined up. -/
def State.withInputs (s : State) (q : List TickInput) : State := { s with inputs := q }

@[simp] theorem State.reg_withInputs (s : State) (q : List TickInput) (r : Reg) :
    (s.withInputs q).reg r = s.reg r := rfl

@[simp] theorem State.keyDown_withInputs (s : State) (q : List TickInput) (k : Byte) :
    (s.withInputs q).keyDown k = s.keyDown k := rfl

@[simp] theorem State.memRead_withInputs (s : State) (q : List TickInput) (a : Nat) :
    (s.withInputs q).memRead a = s.memRead a := rfl

@[simp] theorem State.transferAddress_withInputs (s : State) (q : List TickInput) (k : Nat) :
    (s.withInputs q).transferAddress k = s.transferAddress k := rfl

@[simp] theorem State.regsUpTo_withInputs (s : State) (q : List TickInput) (x : Reg) :
    (s.withInputs q).regsUpTo x = s.regsUpTo x := rfl

@[simp] theorem State.drawStalled_withInputs (s : State) (q : List TickInput) :
    (s.withInputs q).drawStalled = s.drawStalled := rfl

/-- An instruction that keeps the inputs where it succeeds keeps them where it raises (R212). -/
theorem State.settle_withInputs (s : State) (q : List TickInput) (e : Except Raise State) :
    (s.withInputs q).settle (e.map (·.withInputs q)) = (s.settle e).withInputs q := by
  cases e <;> rfl

/-- A load does not look at the inputs. -/
@[simp] theorem State.loadBytes_withInputs (s : State) (q : List TickInput) (a n : Nat) :
    (s.withInputs q).loadBytes a n = s.loadBytes a n := by
  induction n generalizing a with
  | zero => rfl
  | succ n ih => simp only [State.loadBytes, State.memRead_withInputs, ih]

/-- A store does not look at the inputs, and keeps them. -/
theorem State.memWrite_withInputs (s : State) (q : List TickInput) (a : Nat) (v : Byte) :
    (s.withInputs q).memWrite a v = (s.memWrite a v).map (·.withInputs q) := by
  simp only [State.memWrite]
  split
  · rfl
  · split <;> rfl

/-- A store of several bytes does not look at the inputs, and keeps them. -/
theorem State.storeBytes_withInputs (s : State) (q : List TickInput) (a : Nat) (bs : List Byte) :
    (s.withInputs q).storeBytes a bs = (s.storeBytes a bs).map (·.withInputs q) := by
  induction bs generalizing s a with
  | nil => rfl
  | cons b bs ih =>
    simp only [State.storeBytes, State.memWrite_withInputs]
    cases s.memWrite a b with
    | error r => rfl
    | ok t => exact ih t (a + 1)

theorem State.setRegs_withInputs (s : State) (q : List TickInput) (k : Nat) (bs : List Byte) :
    (s.withInputs q).setRegs k bs = (s.setRegs k bs).withInputs q := by
  induction bs generalizing s k with
  | nil => rfl
  | cons b bs ih => exact ih (s.setReg (Fin.ofNat 16 k) b) (k + 1)

/-- A draw does not look at the inputs, and keeps them. -/
theorem State.drawSprite_withInputs (s : State) (q : List TickInput) (x y : Reg) (n : BitVec 4) :
    (s.withInputs q).drawSprite x y n = (s.drawSprite x y n).map (·.withInputs q) := by
  simp only [State.drawSprite, State.transferAddress_withInputs, State.loadBytes_withInputs]
  cases s.loadBytes (s.transferAddress 0) n.toNat <;> rfl

/-- Of the inputs of its tick an instruction other than CXKK reads the release edge alone: with other inputs that have
the same release edge it does the same. -/
theorem exec_withInputs {q : List TickInput} (hi : ∀ x kk, i ≠ .rnd x kk)
    (hrel : (s.withInputs q).input.released = s.input.released) (h : exec i s = .next t) :
    exec i (s.withInputs q) = .next (t.withInputs q) := by
  cases i
  case rnd x kk => exact absurd rfl (hi x kk)
  case ret =>
    rcases s.sp.val.eq_zero_or_pos with hsp | hsp
    · cases (exec_ret_of_empty hsp).symm.trans h
      exact exec_ret_of_empty (s := s.withInputs q) hsp
    · cases (exec_ret_of_pos hsp).symm.trans h
      exact exec_ret_of_pos (s := s.withInputs q) hsp
  case call nnn =>
    rcases s.sp_le.eq_or_lt with hsp | hsp
    · cases (exec_call_of_full nnn hsp).symm.trans h
      exact exec_call_of_full (s := s.withInputs q) nnn hsp
    · cases (exec_call_of_lt nnn hsp).symm.trans h
      exact exec_call_of_lt (s := s.withInputs q) nnn hsp
  all_goals (injection h with h; subst h)
  case skp x | sknp x =>
    simp only [exec, execSkp, execSknp, State.reg_withInputs, State.keyDown_withInputs]
    cases s.keyDown (s.reg x) <;> rfl
  case ldVxK x =>
    simp only [exec, execLdVxK, hrel]
    split <;> rfl
  case ldBVx x =>
    simp only [exec, execLdBVx, State.transferAddress_withInputs, State.reg_withInputs, State.storeBytes_withInputs,
      State.settle_withInputs]
  case ldMemVx x =>
    simp only [exec, execLdMemVx, State.transferAddress_withInputs, State.regsUpTo_withInputs,
      State.storeBytes_withInputs]
    cases s.storeBytes (s.transferAddress 0) (s.regsUpTo x) <;> rfl
  case ldVxMem x =>
    simp only [exec, execLdVxMem, State.transferAddress_withInputs, State.loadBytes_withInputs,
      State.setRegs_withInputs]
    cases s.loadBytes (s.transferAddress 0) (x.val + 1) <;> rfl
  case drw x y n =>
    simp only [exec, execDrw, State.drawStalled_withInputs, State.drawSprite_withInputs, State.settle_withInputs]
    split <;> rfl
  all_goals exact rfl

end Sys2Proof.Machine

/-! ## The statements of 41_alu.md -/

namespace Sys2Proof.Proofs

open Sys2Proof.Machine

/-- Settles O28: changing the random byte keeps the release edge, all that the other forms read of the inputs. -/
theorem theRandomByteReachesOnlyRandom : Obligations.TheRandomByteReachesOnlyRandom := by
  unfold Obligations.TheRandomByteReachesOnlyRandom
  intro i s t input rest r hi h
  exact exec_withInputs (s := { s with inputs := input :: rest }) hi rfl h

/-- Settles O41: both forms write a difference and its no-borrow flag, the second with the operands exchanged. -/
theorem subtractionsWriteTheDifferenceAndNoBorrow : Obligations.SubtractionsWriteTheDifferenceAndNoBorrow := by
  unfold Obligations.SubtractionsWriteTheDifferenceAndNoBorrow
  intro s x y i a b hi
  have hexec : exec i s = .next (s.setWithFlag x (a - b) (noBorrow a b)) := by
    obtain ⟨rfl, rfl, rfl⟩ | ⟨rfl, rfl, rfl⟩ := hi <;> rfl
  refine ⟨_, hexec, rfl, fun hx => ?_, ?_, fun r hx hf => s.reg_setWithFlag_of_ne _ _ (not_or.2 ⟨hx, hf⟩)⟩
  · rw [s.reg_setWithFlag_self _ _ hx, sub_toNat_eq_emod]
  · rw [s.reg_setWithFlag_flag, noBorrow, flagByte_decide]

/-- Settles O42: a shift by one is a division or a product by 2, and the evicted bit is its remainder or carry. -/
theorem shiftsWriteTheResultAndTheEvictedBit : Obligations.ShiftsWriteTheResultAndTheEvictedBit := by
  unfold Obligations.ShiftsWriteTheResultAndTheEvictedBit
  intro s x y v hv
  obtain rfl : v = s.shiftSource x y := hv
  refine ⟨⟨_, rfl, rfl, fun hx => ?_, ?_, fun r hx hf => s.reg_setWithFlag_of_ne _ _ (not_or.2 ⟨hx, hf⟩)⟩,
    ⟨_, rfl, rfl, fun hx => ?_, ?_, fun r hx hf => s.reg_setWithFlag_of_ne _ _ (not_or.2 ⟨hx, hf⟩)⟩⟩
  · rw [s.reg_setWithFlag_self _ _ hx, BitVec.toNat_ushiftRight, Nat.shiftRight_eq_div_pow, Nat.pow_one]
  · rw [s.reg_setWithFlag_flag, flagByte_toNat, evictedRight_toNat]
  · rw [s.reg_setWithFlag_self _ _ hx, BitVec.toNat_shiftLeft, Nat.shiftLeft_eq, Nat.pow_one]
  · rw [s.reg_setWithFlag_flag, flagByte_toNat, evictedLeft_toNat]

/-- Settles O37: reading after one write; addition of bytes is modulo 256. -/
theorem immediatesWriteOneRegister : Obligations.ImmediatesWriteOneRegister := by
  unfold Obligations.ImmediatesWriteOneRegister
  refine fun s x kk => ⟨⟨_, rfl, s.reg_setReg_self x kk, fun r => s.reg_setReg_of_ne kk, rfl⟩,
    ⟨_, rfl, ?_, fun r => s.reg_setReg_of_ne _, rfl⟩⟩
  rw [State.reg_setReg_self, BitVec.toNat_add]

/-- Settles O38: reading after one write. -/
theorem setCopiesARegister : Obligations.SetCopiesARegister := by
  unfold Obligations.SetCopiesARegister
  exact fun s x y => ⟨_, rfl, s.reg_setReg_self x _, fun r => s.reg_setReg_of_ne _, rfl⟩

/-- Settles O39: the three forms write their result and then the flag, which is there only under `Q.vf_reset`. -/
theorem bitwiseFormsWriteTheResult : Obligations.BitwiseFormsWriteTheResult := by
  unfold Obligations.BitwiseFormsWriteTheResult
  intro s x y i v hi
  have hexec : exec i s = .next (s.setReg x v).bitwiseFlag := by
    obtain ⟨rfl, rfl⟩ | ⟨rfl, rfl⟩ | ⟨rfl, rfl⟩ := hi <;> rfl
  refine ⟨_, hexec, rfl,
    fun r hx hf => s.reg_setReg_bitwiseFlag_of_ne v (not_or.2 ⟨hx, fun h => hf h.2⟩),
    fun hq => ⟨?_, fun hx => ?_⟩, fun hq => ?_⟩
  · rw [State.reg_bitwiseFlag, if_pos ⟨hq, rfl⟩]
  · rw [State.reg_bitwiseFlag, if_neg fun h => hx h.2, s.reg_setReg_self]
  · rw [State.bitwiseFlag_of_not_vfReset (s := s.setReg x v) hq]
    exact ⟨s.reg_setReg_self x v, fun hx => s.reg_setReg_of_ne v hx.symm⟩

/-- Settles O40: addition of bytes is modulo 256, and the flag is the carry. -/
theorem addWritesTheSumAndTheCarry : Obligations.AddWritesTheSumAndTheCarry := by
  unfold Obligations.AddWritesTheSumAndTheCarry
  intro s x y
  refine ⟨_, rfl, rfl, fun hx => ?_, ?_, fun r hx hf => s.reg_setWithFlag_of_ne _ _ (not_or.2 ⟨hx, hf⟩)⟩
  · rw [s.reg_setWithFlag_self _ _ hx, BitVec.toNat_add]
  · rw [s.reg_setWithFlag_flag, carryOut, flagByte_decide]

/-- Settles O43: reading after one write. -/
theorem randomMasksTheRandomByte : Obligations.RandomMasksTheRandomByte := by
  unfold Obligations.RandomMasksTheRandomByte
  exact fun s x kk => ⟨_, rfl, s.reg_setReg_self x _, fun r => s.reg_setReg_of_ne _, rfl⟩

end Sys2Proof.Proofs

/-! ## The index register, and the transfers between registers and memory (42_memory_index.md) -/

namespace Sys2Proof.Machine

variable {s : State}

/-! ### What the index register holds -/

/-- The font ends below 0x200, so the address of a glyph does not wrap (R32, R152). -/
theorem State.glyphAddress_toNat (s : State) (v : Byte) :
    (s.glyphAddress v).toNat = s.params.fontBase.val + 5 * (v.toNat % 16) := by
  have hbase := s.params.fontBase.isLt
  rw [State.glyphAddress, BitVec.toNat_ofNat, Nat.mod_eq_of_lt (by simp; omega)]

/-- A block transfer advances `I` past its last byte, modulo 65536, under `Q.index_advance` (R154, R155). -/
theorem State.advancedI_toNat (s : State) (x : Reg) :
    (s.advancedI x).toNat =
      if s.params.quirks.indexAdvance then (s.I.toNat + x.val + 1) % 65536 else s.I.toNat := by
  rw [State.advancedI]
  split
  · rw [BitVec.toNat_add, BitVec.toNat_ofNat]
    omega
  · rfl

/-! ### Bytes stored from `I` on -/

/-- The state with bytes stored from `I` on. -/
def State.withBytes (s : State) (bs : List Byte) : State :=
  { s with mem := Memory.writeAll s.params s.mem (s.transferAddress 0) bs }

/-- A store from `I` on, to addresses that all may be written, succeeds. -/
theorem State.storeBytes_eq_withBytes {bs : List Byte} (hlow : 0x200 ≤ s.transferAddress 0)
    (hhigh : s.transferAddress bs.length ≤ 0x1000) :
    s.storeBytes (s.transferAddress 0) bs = .ok (s.withBytes bs) :=
  s.storeBytes_ok _ bs hlow hhigh

theorem State.byteAt_withBytes_outside (s : State) {bs : List Byte} {a : Nat}
    (h : a < s.transferAddress 0 ∨ s.transferAddress bs.length ≤ a) : (s.withBytes bs).byteAt a = s.byteAt a :=
  Memory.read_writeAll_other s.mem bs h

/-- Where memory has its invariant, byte `k` of a transfer is read back at `I + k`. -/
theorem State.Inv.byteAt_withBytes (hs : s.Inv) (bs : List Byte) {k : Nat} (hk : k < bs.length) :
    (s.withBytes bs).byteAt (s.transferAddress k) = bs[k] := by
  obtain ⟨hwf, -⟩ := hs
  exact Memory.read_writeAll_self hwf (s.transferAddress 0) bs k hk

/-! ### The transfers -/

/-- FX33 where all three addresses may be written (R153). -/
theorem exec_ldBVx_of_writable (x : Reg) (hlow : 0x200 ≤ s.transferAddress 0) (hhigh : s.transferAddress 2 ≤ 0xFFF) :
    exec (.ldBVx x) s = .next (s.withBytes (bcdDigits (s.reg x))) := by
  have hlast : s.transferAddress (bcdDigits (s.reg x)).length ≤ 0x1000 := Nat.succ_le_succ hhigh
  rw [exec, execLdBVx, State.storeBytes_eq_withBytes hlow hlast, State.settle_ok]

/-- FX55 where all of its addresses may be written (R154). -/
theorem exec_ldMemVx_of_writable (x : Reg) (hlow : 0x200 ≤ s.transferAddress 0)
    (hhigh : s.transferAddress x.val ≤ 0xFFF) :
    exec (.ldMemVx x) s = .next ((s.withBytes (s.regsUpTo x)).setI (s.advancedI x)) := by
  have hlast : s.transferAddress (s.regsUpTo x).length ≤ 0x1000 := by
    rw [State.regsUpTo_length]
    exact Nat.succ_le_succ hhigh
  rw [exec, execLdMemVx, State.storeBytes_eq_withBytes hlow hlast]
  rfl

/-- FX65 where all of its addresses exist (R155). -/
theorem exec_ldVxMem_of_readable (x : Reg) (hhigh : s.transferAddress x.val ≤ 0xFFF) :
    exec (.ldVxMem x) s = .next ((s.setRegs 0
      ((List.range (x.val + 1)).map fun k => s.byteAt (s.transferAddress k))).setI (s.advancedI x)) := by
  have hread : ∀ k, k < x.val + 1 → s.transferAddress k ≤ 0xFFF := fun k hk =>
    (Nat.add_le_add_left (Nat.le_of_lt_succ hk) _).trans hhigh
  rw [exec, execLdVxMem, s.loadBytes_ok (s.transferAddress 0) (x.val + 1) hread]
  rfl

/-- `V[0]` to `V[x]` take the bytes of a list of `x + 1`, and the other registers stay (R155). -/
theorem State.reg_setRegs_map_range (s : State) (x r : Reg) (f : Nat → Byte) :
    (s.setRegs 0 ((List.range (x.val + 1)).map f)).reg r = if r ≤ x then f r.val else s.reg r := by
  have hlen : ((List.range (x.val + 1)).map f).length = x.val + 1 := by simp
  rw [State.reg_setRegs _ _ _ (by omega), if_pos r.val.zero_le, Nat.sub_zero]
  by_cases hr : r.val ≤ x.val
  · rw [if_pos (Fin.le_def.2 hr), List.getElem?_map, List.getElem?_range (Nat.lt_succ_of_le hr), Option.map_some,
      Option.getD_some]
  · rw [if_neg (mt Fin.le_def.1 hr), List.getElem?_eq_none (by omega), Option.getD_none]

/-! ### Transfers that raise -/

/-- FX33 raises what its store raises, and does nothing else (R153, R213). -/
theorem exec_ldBVx_of_error {x : Reg} {r : Raise}
    (h : s.storeBytes (s.transferAddress 0) (bcdDigits (s.reg x)) = .error r) :
    exec (.ldBVx x) s = .next (s.raise r) := by
  rw [exec, execLdBVx, h, State.settle_error]

/-- FX55 raises what its store raises, and does nothing else (R154, R213). -/
theorem exec_ldMemVx_of_error {x : Reg} {r : Raise}
    (h : s.storeBytes (s.transferAddress 0) (s.regsUpTo x) = .error r) :
    exec (.ldMemVx x) s = .next (s.raise r) := by
  rw [exec, execLdMemVx, h, State.settle_error]

/-- FX65 raises what its load raises, and does nothing else (R155, R213). -/
theorem exec_ldVxMem_of_error {x : Reg} {r : Raise}
    (h : s.loadBytes (s.transferAddress 0) (x.val + 1) = .error r) :
    exec (.ldVxMem x) s = .next (s.raise r) := by
  rw [exec, execLdVxMem, h, State.settle_error]

end Sys2Proof.Machine

/-! ## The statements of 42_memory_index.md -/

namespace Sys2Proof.Proofs

open Sys2Proof.Machine

/-- Settles O46: the three bytes stored are read back, and each digit fits a byte. -/
theorem bcdStoresThreeDigits : Obligations.BcdStoresThreeDigits := by
  unfold Obligations.BcdStoresThreeDigits
  intro s x hlow hhigh
  refine ⟨_, exec_ldBVx_of_writable x hlow hhigh, rfl, fun a ha => ?_, fun hs => ?_⟩
  · exact s.byteAt_withBytes_outside ha
  · have hv := (s.reg x).isLt
    have hbytes := fun k => hs.byteAt_withBytes (bcdDigits (s.reg x)) (k := k)
    rw [hbytes 0 (Nat.zero_lt_succ _), hbytes 1 (Nat.one_lt_succ_succ _), hbytes 2 (Nat.lt_succ_self _)]
    exact ⟨Nat.mod_eq_of_lt (by omega), Nat.mod_eq_of_lt (by omega), Nat.mod_eq_of_lt (by omega)⟩

/-- Settles O47: the registers stored are read back, and memory stays outside the transfer. -/
theorem storeRegistersCopiesThemToMemory : Obligations.StoreRegistersCopiesThemToMemory := by
  unfold Obligations.StoreRegistersCopiesThemToMemory
  intro s x hlow hhigh
  refine ⟨_, exec_ldMemVx_of_writable x hlow hhigh, rfl, s.advancedI_toNat x, fun a ha => ?_, fun hs r hr => ?_⟩
  · have hout : a < s.transferAddress 0 ∨ s.transferAddress (s.regsUpTo x).length ≤ a := by
      rwa [State.regsUpTo_length]
    exact s.byteAt_withBytes_outside hout
  · have hlt : r.val < (s.regsUpTo x).length := by
      rw [State.regsUpTo_length]
      exact Nat.lt_succ_of_le hr
    exact (hs.byteAt_withBytes _ hlt).trans (s.regsUpTo_getElem x r.val hlt)

/-- Settles O48: the loaded registers take the bytes read, and only registers and `I` change. -/
theorem loadRegistersCopiesThemFromMemory : Obligations.LoadRegistersCopiesThemFromMemory := by
  unfold Obligations.LoadRegistersCopiesThemFromMemory
  intro s x hhigh
  have hreg := fun r => s.reg_setRegs_map_range x r fun k => s.byteAt (s.transferAddress k)
  refine ⟨_, exec_ldVxMem_of_readable x hhigh, ?_, s.advancedI_toNat x, fun r hr => ?_, fun r hr => ?_⟩
  · rw [State.setRegs_frame]
    rfl
  · exact (hreg r).trans (if_pos hr)
  · exact (hreg r).trans (if_neg (not_le.2 hr))

/-- Settles O49: a store and a load raise at the first address that fails its check, and the error is all that is left. -/
theorem transferRaisesAtTheFirstBadAddress : Obligations.TransferRaisesAtTheFirstBadAddress := by
  unfold Obligations.TransferRaisesAtTheFirstBadAddress
  refine fun s x k => ⟨fun cause _ hbad hok => ⟨fun hk => ?_, fun hk => ?_⟩, fun hk hbad hok => ?_⟩
  · have hlen : k < (bcdDigits (s.reg x)).length := Nat.lt_succ_of_le hk
    exact exec_ldBVx_of_error (s.storeBytes_error _ k _ cause hlen hbad hok)
  · have hlen : k < (s.regsUpTo x).length := by
      rw [State.regsUpTo_length]
      exact Nat.lt_succ_of_le hk
    exact exec_ldMemVx_of_error (s.storeBytes_error _ k _ cause hlen hbad hok)
  · exact exec_ldVxMem_of_error (s.loadBytes_error _ _ k (Nat.lt_succ_of_le hk) hbad hok)

/-- Settles O50: the load reads the bytes the store left, which are the registers stored. -/
theorem loadAfterStoreRestoresTheRegisters : Obligations.LoadAfterStoreRestoresTheRegisters := by
  unfold Obligations.LoadAfterStoreRestoresTheRegisters
  intro s t x between hs hlow hhigh hstore
  obtain ⟨t', ht', -, -, -, hbytes⟩ := storeRegistersCopiesThemToMemory s x hlow hhigh
  obtain rfl : t' = t := Host.Outcome.next.inj (ht'.symm.trans hstore)
  obtain ⟨u, hload, -, -, hregs, -⟩ := loadRegistersCopiesThemFromMemory { t' with V := between, I := s.I } x hhigh
  exact ⟨u, hload, fun r hr => (hregs r hr).trans (hbytes hs r hr)⟩

/-- Settles O44: neither address wraps. -/
theorem indexLoadsAnAddress : Obligations.IndexLoadsAnAddress := by
  unfold Obligations.IndexLoadsAnAddress
  exact fun s nnn x => ⟨⟨_, rfl, addressOf_toNat nnn, rfl⟩, ⟨_, rfl, s.glyphAddress_toNat (s.reg x), rfl⟩⟩

/-- Settles O45: addition of 16-bit values is modulo 65536, and zero-extension keeps the register's value. -/
theorem addToIndexWraps : Obligations.AddToIndexWraps := by
  unfold Obligations.AddToIndexWraps
  refine fun s x => ⟨_, rfl, ?_, rfl⟩
  rw [State.setI_I, BitVec.toNat_add, wordOf_toNat]

end Sys2Proof.Proofs

/-! ## What a draw does, in the words of the statements (43_display.md) -/

namespace Sys2Proof.Machine

variable {s t : State} {x y : Reg} {n : BitVec 4}

/-! ### The three ends of a draw -/

/-- A draw that display wait stalls goes back to its own address (R172). -/
theorem exec_drw_of_stalled (h : ¬ Claims.drawProceeds s) : exec (.drw x y n) s = .next s.rewind := by
  rw [exec, execDrw, if_pos (State.drawStalled_iff.2 h)]

/-- A draw that is not stalled reads its sprite and draws it, or raises (R171). -/
theorem exec_drw_of_proceeds (h : Claims.drawProceeds s) :
    exec (.drw x y n) s = .next (s.settle (s.drawSprite x y n)) := by
  rw [exec, execDrw, if_neg fun hstalled => State.drawStalled_iff.1 hstalled h]

/-- The state with the sprite of `n` rows drawn (R173). -/
def State.withSprite (s : State) (x y : Reg) (n : BitVec 4) : State :=
  { s.setFlag (s.drawn x y n.toNat).2 with
    fb := (s.drawn x y n.toNat).1
    vblank := if s.params.quirks.displayWait then false else s.vblank
    shouldDraw := true }

/-- A draw that is not stalled and whose bytes all exist draws its sprite (R173). -/
theorem exec_drw_of_readable (hdraw : Claims.drawProceeds s) (hread : Claims.spriteReadable s n) :
    exec (.drw x y n) s = .next (s.withSprite x y n) := by
  rw [exec_drw_of_proceeds hdraw, s.drawSprite_ok x y n hread]
  rfl

/-! ### The pixels a sprite covers -/

/-- A bit lands on a pixel where its column lands on the pixel's column, and its row, where it is not clipped, on the
pixel's row. -/
theorem bitLandsOn_iff (s : State) (x y : Reg) (px : Fin 64) (py : Fin 32) (r c : Nat) :
    Claims.bitLandsOn s x y px py r c ↔
      (s.params.quirks.clip = true → (s.reg y).toNat % 32 + r < 32) ∧ ((s.reg y).toNat % 32 + r) % 32 = py.val ∧
      columnLands s.params.quirks.clip ((s.reg x).toNat % 64) (s.byteAt (s.transferAddress r)) c px := by
  have hpx := px.isLt
  have hpy := py.isLt
  unfold Claims.bitLandsOn columnLands
  cases s.params.quirks.clip with
  | true =>
    rw [if_pos rfl]
    constructor
    · rintro ⟨hbit, hcol, hrow⟩
      exact ⟨fun _ => by omega, by omega, hbit, fun _ => by omega, by omega⟩
    · rintro ⟨hrow, hpy', hbit, hcol, hpx'⟩
      rw [Nat.mod_eq_of_lt (hcol rfl)] at hpx'
      rw [Nat.mod_eq_of_lt (hrow rfl)] at hpy'
      exact ⟨hbit, hpx', hpy'⟩
  | false =>
    rw [if_neg Bool.false_ne_true]
    exact ⟨fun ⟨hbit, hcol, hrow⟩ => ⟨nofun, hrow, hbit, nofun, hcol⟩,
      fun ⟨_, hrow, hbit, _, hcol⟩ => ⟨hbit, hcol, hrow⟩⟩

/-- The pixels the rows of a sprite land on are those the sprite covers. -/
theorem spriteLands_spriteRows_iff (s : State) (x y : Reg) (n : BitVec 4) (px : Fin 64) (py : Fin 32) :
    spriteLands s.params.quirks.clip ((s.reg x).toNat % 64) ((s.reg y).toNat % 32) 0 (s.spriteRows n.toNat) px py ↔
      Claims.spriteCovers s x y n px py := by
  simp only [Claims.spriteCovers, bitLandsOn_iff, spriteLands, State.spriteRows_getElem?, Nat.zero_add]
  constructor
  · rintro ⟨r, row, ⟨hr, rfl⟩, hclip, hrow, c, hc, hcol⟩
    exact ⟨r, c, hr, hc, hclip, hrow, hcol⟩
  · rintro ⟨r, c, hr, hc, hclip, hrow, hcol⟩
    exact ⟨r, _, ⟨hr, rfl⟩, hclip, hrow, c, hc, hcol⟩

/-- What a sprite covers depends on memory, `I`, the clip toggle and the place alone. -/
theorem spriteCovers_congr (hI : t.I = s.I) (hmem : t.mem = s.mem) (hparams : t.params = s.params)
    (hx : (t.reg x).toNat % 64 = (s.reg x).toNat % 64) (hy : (t.reg y).toNat % 32 = (s.reg y).toNat % 32)
    (px : Fin 64) (py : Fin 32) : Claims.spriteCovers t x y n px py ↔ Claims.spriteCovers s x y n px py := by
  simp only [Claims.spriteCovers, Claims.bitLandsOn, State.byteAt_congr hmem hparams, State.transferAddress, hI,
    hparams, hx, hy]

/-- Which sprites can be read depends on `I` alone. -/
theorem spriteReadable_congr (hI : t.I = s.I) (h : Claims.spriteReadable s n) : Claims.spriteReadable t n := by
  simpa only [Claims.spriteReadable, State.transferAddress, hI] using h

/-! ### What drawing leaves -/

/-- Drawing toggles the covered pixels, and collides where one of them was set: a sprite has at most 15 rows, so no two
of its bits land on one pixel (R173). -/
theorem State.drawn_spec (s : State) (x y : Reg) (n : BitVec 4) :
    (∀ px py, Claims.spriteCovers s x y n px py → (s.drawn x y n.toNat).1.pixel px py = !s.fb.pixel px py) ∧
    (∀ px py, ¬ Claims.spriteCovers s x y n px py → (s.drawn x y n.toNat).1.pixel px py = s.fb.pixel px py) ∧
    ((s.drawn x y n.toNat).2 = true ↔ ∃ px py, Claims.spriteCovers s x y n px py ∧ s.fb.pixel px py = true) := by
  have hrows : (s.spriteRows n.toNat).length ≤ 32 := by
    have hn := n.isLt
    rw [State.spriteRows_length]
    omega
  obtain ⟨hcovered, hothers, hhit⟩ := drawRows_spec s.params.quirks.clip ((s.reg x).toNat % 64)
    ((s.reg y).toNat % 32) 0 (s.spriteRows n.toNat) (s.fb, false) hrows
  simp only [spriteLands_spriteRows_iff] at hcovered hothers hhit
  exact ⟨hcovered, hothers, hhit.trans (by simp)⟩

/-- After a draw VF is the collision flag, also where a coordinate was in VF (R171). -/
theorem State.reg_withSprite_flag (s : State) (x y : Reg) (n : BitVec 4) :
    (s.withSprite x y n).reg 15 = flagByte (s.drawn x y n.toNat).2 :=
  (s.reg_setFlag 15 _).trans (if_pos rfl)

/-- A draw leaves the other registers. -/
theorem State.reg_withSprite_of_ne {r : Reg} (s : State) (x y : Reg) (n : BitVec 4) (h : r ≠ 15) :
    (s.withSprite x y n).reg r = s.reg r :=
  (s.reg_setFlag r _).trans (if_neg h)

end Sys2Proof.Machine

/-! ## The statements of 43_display.md -/

namespace Sys2Proof.Proofs

open Sys2Proof.Machine Sys2Proof.Claims

/-- Settles O52: `State.drawn_spec` for the pixels and the flag, and the draw writes nothing else. -/
theorem drawTogglesTheCoveredPixels : Obligations.DrawTogglesTheCoveredPixels := by
  unfold Obligations.DrawTogglesTheCoveredPixels
  intro s x y n hdraw hread
  obtain ⟨hcovered, hothers, hhit⟩ := s.drawn_spec x y n
  refine ⟨_, exec_drw_of_readable hdraw hread, hcovered, hothers, fun h => ?_, fun h => ?_,
    fun r => s.reg_withSprite_of_ne x y n, rfl, rfl, rfl⟩
  · rw [State.reg_withSprite_flag, hhit.2 h]
    rfl
  · rw [State.reg_withSprite_flag, Bool.eq_false_iff.2 (mt hhit.1 h)]
    rfl

/-- Settles O54: the sprite is read before anything is written, and the read raises at its first bad byte. -/
theorem drawRaisesOnAnUnreadableSprite : Obligations.DrawRaisesOnAnUnreadableSprite := by
  unfold Obligations.DrawRaisesOnAnUnreadableSprite
  intro s x y n k hdraw hk hbad hok
  rw [exec_drw_of_proceeds hdraw, s.drawSprite_error x y n k hk hbad hok]
  rfl

/-- Settles O55: both draws cover the same pixels, and the second finds each of them as the first left it, toggled. -/
theorem drawingTwiceRestoresTheFramebuffer : Obligations.DrawingTwiceRestoresTheFramebuffer := by
  unfold Obligations.DrawingTwiceRestoresTheFramebuffer
  intro s t x y n hdraw hread hfirst hx hy
  obtain ⟨t', ht', hcovered, hothers, -, -, -, -, -, hframe⟩ := drawTogglesTheCoveredPixels s x y n hdraw hread
  obtain rfl : t' = t := Host.Outcome.next.inj (ht'.symm.trans hfirst)
  have hI : t'.I = s.I := (congrArg State.I hframe :)
  have hcovers := spriteCovers_congr (s := s) (t := { t' with vblank := true }) (n := n) hI
    (congrArg State.mem hframe :) (congrArg State.params hframe :) hx hy
  obtain ⟨u, hu, hcovered', hothers', hhit, hmiss, -⟩ :=
    drawTogglesTheCoveredPixels { t' with vblank := true } x y n (fun _ => rfl) (spriteReadable_congr hI hread)
  have hclash : (∃ px py, spriteCovers { t' with vblank := true } x y n px py ∧ t'.fb.pixel px py = true) ↔
      ∃ px py, spriteCovers s x y n px py ∧ s.fb.pixel px py = false :=
    exists₂_congr fun px py => (and_congr_left' (hcovers px py)).trans <| and_congr_right fun h => by
      rw [hcovered px py h, Bool.not_eq_true']
  refine ⟨u, hu, Frame.ext_pixel fun px py => ?_, fun h => hhit (hclash.2 h), fun h => hmiss (mt hclash.1 h)⟩
  by_cases h : spriteCovers s x y n px py
  · calc u.fb.pixel px py = !t'.fb.pixel px py := hcovered' px py ((hcovers px py).2 h)
      _ = s.fb.pixel px py := by rw [hcovered px py h, Bool.not_not]
  · calc u.fb.pixel px py = t'.fb.pixel px py := hothers' px py (mt (hcovers px py).1 h)
      _ = s.fb.pixel px py := hothers px py h

/-- Settles O51: the cleared framebuffer has no set pixel. -/
theorem clearScreenClearsEveryPixel : Obligations.ClearScreenClearsEveryPixel := by
  unfold Obligations.ClearScreenClearsEveryPixel
  intro s
  refine ⟨_, rfl, Frame.pixel_clear, fun h => ?_, fun h => ?_, rfl⟩
  · exact Bool.or_eq_true_iff.2 (.inl h)
  · exact (congrArg (· || s.shouldDraw) h).trans (Bool.false_or _)

/-- Settles O56: on a clear framebuffer the toggled pixels are the set ones, and none of them collides. -/
theorem drawAfterClearLeavesOnlyTheSprite : Obligations.DrawAfterClearLeavesOnlyTheSprite := by
  unfold Obligations.DrawAfterClearLeavesOnlyTheSprite
  intro s t x y n hdraw hread hcls
  obtain ⟨t', ht', hclear, -, -, hframe⟩ := clearScreenClearsEveryPixel s
  obtain rfl : t' = t := Host.Outcome.next.inj (ht'.symm.trans hcls)
  have hI : t'.I = s.I := (congrArg State.I hframe :)
  have hdraw' : drawProceeds t' := by
    rw [hframe]
    exact hdraw
  have hcovers : ∀ px py, spriteCovers t' x y n px py ↔ spriteCovers s x y n px py := by
    rw [hframe]
    exact fun px py => .rfl
  obtain ⟨u, hu, hcovered, hothers, -, hmiss, -⟩ :=
    drawTogglesTheCoveredPixels t' x y n hdraw' (spriteReadable_congr hI hread)
  refine ⟨u, hu, hmiss fun ⟨px, py, _, hset⟩ => ?_, fun px py => ?_⟩
  · exact Bool.false_ne_true ((hclear px py).symm.trans hset)
  · rw [← hcovers]
    by_cases h : spriteCovers t' x y n px py
    · rw [hcovered px py h, hclear px py]
      exact iff_of_true rfl h
    · rw [hothers px py h, hclear px py]
      exact iff_of_false Bool.false_ne_true h

/-- Settles O53: under display wait without the latch the draw does not proceed. -/
theorem drawWaitsForVblank : Obligations.DrawWaitsForVblank := by
  unfold Obligations.DrawWaitsForVblank
  intro s x y n hwait hblank
  have hstalled : ¬ drawProceeds s := fun h => Bool.false_ne_true (hblank.symm.trans (h hwait))
  exact exec_drw_of_stalled hstalled

end Sys2Proof.Proofs

/-! ## The timers and the keys (44_timers_input.md) -/

namespace Sys2Proof.Machine

variable {s : State} {x : Reg}

/-! ### The key a register names -/

/-- An index from 0 to 15 names a key, and the latch says whether it is down (R194, R195). -/
theorem State.keyDown_of_key (s : State) {b : Byte} {k : Fin 16} (h : b.toNat = k.val) :
    s.keyDown b = .ok s.keyState[k.val] := by
  have hkey : b.toNat < Config.numKeys := h.trans_lt k.isLt
  rw [State.keyDown, dif_pos hkey]
  simp only [h]

/-- An index above 15 names no key (decision D18). -/
theorem State.keyDown_error (s : State) {b : Byte} (h : 15 < b.toNat) :
    s.keyDown b = .error (.keyIndexFault, .key s.instrAddress b) :=
  dif_neg (Nat.not_lt.2 h)

/-! ### The key skips and the wait for a key -/

/-- EX9E skips where the key is down (R194). -/
theorem exec_skp_of_ok {down : Bool} (h : s.keyDown (s.reg x) = .ok down) :
    exec (.skp x) s = .next (s.skipIf down) := by
  rw [exec, execSkp, h, State.settle_ok]

/-- EXA1 skips where the key is not down (R195). -/
theorem exec_sknp_of_ok {down : Bool} (h : s.keyDown (s.reg x) = .ok down) :
    exec (.sknp x) s = .next (s.skipIf !down) := by
  rw [exec, execSknp, h, State.settle_ok]

/-- EX9E raises what its test of the latch raises, and does nothing else (R194, R213). -/
theorem exec_skp_of_error {r : Raise} (h : s.keyDown (s.reg x) = .error r) :
    exec (.skp x) s = .next (s.raise r) := by
  rw [exec, execSkp, h, State.settle_error]

/-- EXA1 raises what its test of the latch raises, and does nothing else (R195, R213). -/
theorem exec_sknp_of_error {r : Raise} (h : s.keyDown (s.reg x) = .error r) :
    exec (.sknp x) s = .next (s.raise r) := by
  rw [exec, execSknp, h, State.settle_error]

/-- FX0A in a tick with a release edge writes the index of the key (R196). -/
theorem exec_ldVxK_of_release (x : Reg) (h : s.input.released ≤ 15) :
    exec (.ldVxK x) s = .next (s.setReg x (BitVec.ofNat 8 s.input.released)) := by
  rw [exec, execLdVxK, if_pos (Nat.lt_succ_of_le h)]

/-- FX0A in a tick with no release edge goes back to its own address (R196, R258). -/
theorem exec_ldVxK_of_no_release (x : Reg) (h : 15 < s.input.released) :
    exec (.ldVxK x) s = .next s.rewind := by
  rw [exec, execLdVxK, if_neg (Nat.not_lt.2 h)]

end Sys2Proof.Machine

/-! ## The statements of 44_timers_input.md -/

namespace Sys2Proof.Proofs

open Sys2Proof.Machine

/-- Settles O57: reading after one write; the other two forms write one timer. -/
theorem timerInstructionsCopy : Obligations.TimerInstructionsCopy := by
  unfold Obligations.TimerInstructionsCopy
  exact fun s x => ⟨⟨_, rfl, s.reg_setReg_self x s.DT, fun r => s.reg_setReg_of_ne s.DT, rfl⟩, rfl, rfl⟩

/-- Settles O58: the register names a key, and each skip tests what the latch says of it. -/
theorem keySkipsTestTheLatch : Obligations.KeySkipsTestTheLatch := by
  unfold Obligations.KeySkipsTestTheLatch
  intro s x k hk
  have hdown := s.keyDown_of_key hk
  constructor
  · rw [exec_skp_of_ok hdown, s.skipIf_of_iff Iff.rfl]
  · rw [exec_sknp_of_ok hdown, s.skipIf_of_iff (Bool.not_eq_true' _).to_iff]

/-- Settles O59: the register names no key, and both skips raise that error. -/
theorem keySkipsRaiseOnABadIndex : Obligations.KeySkipsRaiseOnABadIndex := by
  unfold Obligations.KeySkipsRaiseOnABadIndex
  intro s x i hi hbad
  have hraise := s.keyDown_error hbad
  obtain rfl | rfl := hi
  · exact exec_skp_of_error hraise
  · exact exec_sknp_of_error hraise

/-- Settles O60: the index of a released key fits a byte; without a release edge `pc` goes back. -/
theorem waitForKeyWaitsForARelease : Obligations.WaitForKeyWaitsForARelease := by
  unfold Obligations.WaitForKeyWaitsForARelease
  refine fun s x => ⟨fun h => ⟨_, exec_ldVxK_of_release x h, ?_, fun r => s.reg_setReg_of_ne _, rfl⟩,
    exec_ldVxK_of_no_release x⟩
  rw [State.reg_setReg_self, BitVec.toNat_ofNat, Nat.mod_eq_of_lt (by omega)]

end Sys2Proof.Proofs

/-! ## The end of a tick: fatal errors, the timers and the key latch (60_exceptions.md) -/

namespace Sys2Proof.Machine

variable {s t : State} {i : Instr} {x : Reg}

/-- A state with a fatal error has no step (R212). -/
theorem step_of_fault {r : FatalRecord} (h : s.fault = some r) : step s = .fault (.halted r) := by
  rw [step, h]

/-- A state with no program loaded has no step (R254). -/
theorem step_of_not_loaded (hf : s.fault = none) (hl : s.loaded = false) : step s = .refused .noProgram := by
  rw [step, hf]
  exact if_neg (Bool.eq_false_iff.1 hl)

/-- A step that raises a fatal error changes nothing but the record, which holds the instruction's address (R212, R215). -/
theorem fatal_step {r : FatalRecord} (h : step s = .next t) (hf : t.fault = some r) :
    t = { s with fault := some r } ∧ r.address = s.pc := by
  obtain ⟨-, ⟨r', rfl, haddr⟩ | ⟨i, u, -, -, -, -, hu, rfl⟩⟩ := step_cases h
  · obtain rfl : r' = r := Option.some.inj hf
    exact ⟨rfl, haddr⟩
  · cases hu.symm.trans hf

/-- The inputs of the tick are the same after its instruction (R237). -/
theorem exec_input (h : exec i s = .next t) : t.input = s.input :=
  State.input_congr (exec_frame h).inputs (exec_frame h).ticks

/-- FX15 leaves its register in `DT` (R191). -/
theorem exec_ldDtVx_DT (h : exec (.ldDtVx x) s = .next t) : t.DT = s.reg x := by
  injection h with h
  rw [← h]

/-- FX18 leaves its register in `ST` (R192). -/
theorem exec_ldStVx_ST (h : exec (.ldStVx x) s = .next t) : t.ST = s.reg x := by
  injection h with h
  rw [← h]

/-- Whether a period has elapsed at the end of the tick is settled at its start: no instruction touches the clock reading
or the reference (R224, R226). -/
theorem periodElapsedAt_of_exec (h : exec i s = .next t) : Claims.periodElapsedAt t ↔ Claims.periodElapsedAt s := by
  rw [Claims.periodElapsedAt, exec_input h, (exec_frame h).lastTick]

/-- A step that raises no fatal error leaves the key latch as the tick's start updated it (R230). -/
theorem completed_step_keyState (h : step s = .next t) (hf : t.fault = none) :
    t.keyState = latchKeys s.keyState s.input := by
  obtain ⟨-, ⟨r, rfl, -⟩ | ⟨i, u, -, -, -, hexec, -, rfl⟩⟩ := step_cases h
  · cases hf
  · exact (exec_frame hexec).keyState

end Sys2Proof.Machine

/-! ## The statements of 60_exceptions.md -/

namespace Sys2Proof.Proofs

open Sys2Proof.Machine Sys2Proof.Claims

/-- Settles O13: of the two things a step can do, only the fatal error leaves a record. -/
theorem fatalTickLeavesThePreTickState : Obligations.FatalTickLeavesThePreTickState := by
  unfold Obligations.FatalTickLeavesThePreTickState
  exact fun _ _ _ h hf => fatal_step h hf

/-- Settles O18: the values before the count-down are the timers the instruction left, and the end of the tick goes by
the clock. -/
theorem completedTickUpdatesTheTimers : Obligations.CompletedTickUpdatesTheTimers := by
  unfold Obligations.CompletedTickUpdatesTheTimers
  intro s t i _ hi h hf
  obtain ⟨u, hexec, hu, ht⟩ := completed_step hi h hf
  rw [← State.endTick_none (s := s) hu] at ht
  subst ht
  obtain ⟨hDT, hST, -⟩ := instructionsLeaveTheHostSideAlone i _ u hexec
  have hperiod : periodElapsedAt u ↔ periodElapsedAt s := (periodElapsedAt_of_exec hexec :)
  have hinput : u.input = s.input := (exec_input hexec :)
  refine ⟨u.DT, u.ST, hDT, ?_, hST, ?_, fun hp => ?_, fun hp => ?_⟩
  · rintro x rfl
    exact (exec_ldDtVx_DT hexec :)
  · rintro x rfl
    exact (exec_ldStVx_ST hexec :)
  · rw [endTick_of_periodElapsed hu (hperiod.2 hp)]
    exact ⟨rfl, rfl, congrArg TickInput.now hinput, rfl⟩
  · rw [endTick_of_not_periodElapsed hu (mt hperiod.1 hp)]
    exact ⟨rfl, rfl, (exec_frame hexec).lastTick⟩

/-- Settles O19: the latch key by key, where the release is written over the press. -/
theorem completedTickLatchesTheKeys : Obligations.CompletedTickLatchesTheKeys := by
  unfold Obligations.CompletedTickLatchesTheKeys
  intro s t h hf k
  rw [completed_step_keyState h hf, latchKeys_getElem]
  exact ⟨fun hr => if_pos hr, fun hr hp => (if_neg hr).trans (if_pos hp),
    fun hr hp => (if_neg hr).trans (if_neg hp)⟩

/-- Settles O10: `step` looks at the record, then at `loaded`. -/
theorem noStepAfterAFatalErrorOrBeforeALoad : Obligations.NoStepAfterAFatalErrorOrBeforeALoad := by
  unfold Obligations.NoStepAfterAFatalErrorOrBeforeALoad
  exact ⟨fun _ _ h => step_of_fault h, fun _ hf hl => step_of_not_loaded hf hl⟩

end Sys2Proof.Proofs

/-! ## Loading a program (70_reset_and_hazards.md) -/

namespace Sys2Proof.Machine

variable {s : State} {bytes : List Byte}

/-- Bytes written anywhere in the program area keep the memory invariant, as one byte does (`State.Inv.write`). -/
theorem State.Inv.writeAll (h : s.Inv) {a : Nat} (hlow : 0x200 ≤ a) (hhigh : a + bytes.length ≤ 0x1000) :
    State.Inv { s with mem := Memory.writeAll s.params s.mem a bytes } := by
  obtain ⟨hwf, harea⟩ := h
  refine ⟨Memory.writeAll_wf hwf a bytes, fun c hc => ?_⟩
  rcases Memory.mem_writeAll hc with hold | ⟨hfrom, hto⟩
  · exact harea c hold
  · omega

/-! ### What a load leaves -/

/-- The state with an image in memory and `pc` at its first byte (R251). -/
def State.withImage (s : State) (bytes : List Byte) : State :=
  { s with mem := Memory.writeAll s.params s.mem 0x200 bytes, pc := 0x200, loaded := true }

theorem State.Inv.withImage (h : s.Inv) (hfits : bytes.length ≤ 3584) : (s.withImage bytes).Inv :=
  State.Inv.congr (h.writeAll (bytes := bytes) (Nat.le_refl 0x200) (by omega)) rfl rfl

/-- Where memory has its invariant, byte `j` of the image is read back at 0x200 + `j`. -/
theorem State.Inv.byteAt_withImage (h : s.Inv) {j : Nat} (hj : j < bytes.length) :
    (s.withImage bytes).byteAt (0x200 + j) = bytes[j] := by
  obtain ⟨hwf, -⟩ := h
  exact Memory.read_writeAll_self hwf 0x200 bytes j hj

theorem State.byteAt_withImage_outside (s : State) {a : Nat} (h : a < 0x200 ∨ 0x200 + bytes.length ≤ a) :
    (s.withImage bytes).byteAt a = s.byteAt a :=
  Memory.read_writeAll_other s.mem bytes h

/-! ### The three answers of `load_program` -/

/-- A second load is refused, whatever the image (R254). -/
theorem State.loadProgram_of_loaded (hl : s.loaded = true) : s.loadProgram bytes = .refused :=
  if_pos hl

/-- An image that reaches past 0xFFF is not loaded (R252). -/
theorem State.loadProgram_of_too_large (hl : s.loaded = false) (hlong : 3584 < bytes.length) :
    s.loadProgram bytes = .imageTooLarge :=
  (if_neg (Bool.eq_false_iff.1 hl)).trans (if_pos hlong)

/-- A first image that fits is loaded (R251). -/
theorem State.loadProgram_of_fits (hl : s.loaded = false) (hfits : bytes.length ≤ 3584) :
    s.loadProgram bytes = .ok (s.withImage bytes) :=
  (if_neg (Bool.eq_false_iff.1 hl)).trans (if_neg (Nat.not_lt.2 hfits))

end Sys2Proof.Machine

/-! ## The statements of 70_reset_and_hazards.md -/

namespace Sys2Proof.Proofs

open Sys2Proof.Machine

/-- Settles O6: the load leaves `State.withImage`, whose bytes are the image's from 0x200 on and the old ones elsewhere. -/
theorem loadProgramCopiesTheImage : Obligations.LoadProgramCopiesTheImage := by
  unfold Obligations.LoadProgramCopiesTheImage
  intro s bytes hs hl hfits
  exact ⟨s.withImage bytes, State.loadProgram_of_fits hl hfits, hs.withImage hfits, rfl, rfl,
    fun _ hj => hs.byteAt_withImage hj, fun _ ha => s.byteAt_withImage_outside ha, rfl⟩

/-- Settles O7: `load_program` looks at `loaded` first and at the length of the image only then. -/
theorem loadProgramReportsWhatItDoesNotLoad : Obligations.LoadProgramReportsWhatItDoesNotLoad := by
  unfold Obligations.LoadProgramReportsWhatItDoesNotLoad
  exact fun _ _ => ⟨State.loadProgram_of_loaded, State.loadProgram_of_too_large⟩

end Sys2Proof.Proofs
